-- ==== Sys2Proof/Word.lean ====
section
/-! DEFINITION. The word, the byte, the register index, the operand width and the operand: the plain types every
other file is written over (spec/00_scope.md R7-R9, spec/10_state.md R20-R23). -/

namespace Sys2Proof

/-- A 16-bit word: a register, an address, a 16-bit operand (R7). -/
abbrev Word := BitVec 16

/-- A byte: the addressable unit of both segments (R7). -/
abbrev Byte := BitVec 8

/-- An index 0-7 into the 16-bit or the 8-bit register view (R20, R22). -/
abbrev RegIdx := Fin 8

/-- Index 4 of the 16-bit view: the stack pointer (R29). -/
abbrev RegIdx.rsp : RegIdx := 4
/-- Index 5 of the 16-bit view: the program counter (R25). -/
abbrev RegIdx.rpp : RegIdx := 5
/-- Index 6 of the 16-bit view: the scratch register (R30). -/
abbrev RegIdx.rint : RegIdx := 6
/-- Index 7 of the 16-bit view: the flags register (R31). -/
abbrev RegIdx.flags : RegIdx := 7

/-- The operand width an instruction's width bit selects (R23). -/
inductive Width where
  | w8
  | w16
  deriving DecidableEq, Repr, Inhabited

/-- `W`, the operand width in bits (R9). -/
abbrev Width.bits : Width → Nat
  | .w8 => 8
  | .w16 => 16

/-- `W / 8`, the operand width in bytes. -/
abbrev Width.bytes : Width → Nat
  | .w8 => 1
  | .w16 => 2

/-- An operand that the immediate bit chooses: a register field, or an immediate taken from the code stream
(`Src2`, `Addr2`, `Tgt` and `Opd1` of spec/30_encoding.md R77-R80). A 1-byte immediate is held zero-extended;
`Instr.wf` says that it fits. -/
inductive Src where
  | reg (r : RegIdx)
  | imm (v : Word)
  deriving DecidableEq, Repr

end Sys2Proof
end

