-- ==== Sys2Proof/Config.lean ====
section
/-! DEFINITION. What an implementation fixes: the configuration parameters of spec/00_scope.md R7 and
spec/92_eei_decisions.md D1, D2, D3, D20, D28, as plain data, and the unknown constants the spec leaves open. -/

namespace Sys2Proof

/-- The 46 mnemonics of spec/30_encoding.md R73, in the order of its families: the keys of `OPC` (R72). -/
inductive Mnemonic where
  | add | inc | sub | dec | cmp | mul | div | not
  | and | or | xor | shl | shr | ld | sd | lp
  | sp | set | push | pull | jmp | jiz | jnz | jin
  | jnn | jic | jnc | jio | jno | call | retf | cfl
  | czf | cnf | ccf | cof | szf | snf | scf | sof
  | wr | rd | int | halt | nop | stop
  deriving DecidableEq, Repr, Inhabited

/-- `DATA_BYTE_ORDER`: the byte order of 16-bit immediates and of LD, SD, LP, SP data (R54, D3). -/
inductive ByteOrder where
  | big
  | little
  deriving DecidableEq, Repr, Inhabited

/-- `UNKNOWN_OPCODE_POLICY` (R83, D2). -/
inductive UnknownOpcodePolicy where
  | fault
  | nop
  deriving DecidableEq, Repr, Inhabited

/-- `RESET_REGS`: what r0-r3, rint and flags hold at engine start (R37, D20). -/
inductive ResetRegs where
  | zero
  | arbitrary
  deriving DecidableEq, Repr, Inhabited

/-- The OPEN part of `OPC`: the opcode bytes of the 43 mnemonics that the source does not give (R72, D1).
SET = 0x05, ADD = 0x10 and STOP = 0x34 are fixed by the spec and so are no fields; `opcOf` supplies them. -/
structure OpcTable where
  inc : Byte
  sub : Byte
  dec : Byte
  cmp : Byte
  mul : Byte
  div : Byte
  not : Byte
  and : Byte
  or : Byte
  xor : Byte
  shl : Byte
  shr : Byte
  ld : Byte
  sd : Byte
  lp : Byte
  sp : Byte
  push : Byte
  pull : Byte
  jmp : Byte
  jiz : Byte
  jnz : Byte
  jin : Byte
  jnn : Byte
  jic : Byte
  jnc : Byte
  jio : Byte
  jno : Byte
  call : Byte
  retf : Byte
  cfl : Byte
  czf : Byte
  cnf : Byte
  ccf : Byte
  cof : Byte
  szf : Byte
  snf : Byte
  scf : Byte
  sof : Byte
  wr : Byte
  rd : Byte
  int : Byte
  halt : Byte
  nop : Byte
  deriving DecidableEq, Repr, Inhabited

/-- The configuration of one core: every parameter of R7 and D28. -/
structure Config where
  /-- `OPC`, the opcode assignment (R72). -/
  opc : OpcTable
  /-- `UNKNOWN_OPCODE_POLICY` (R83). -/
  unknownOpcodePolicy : UnknownOpcodePolicy
  /-- `DATA_BYTE_ORDER` (R54). -/
  dataByteOrder : ByteOrder
  /-- `RESET_REGS` (R37). -/
  resetRegs : ResetRegs
  /-- `FAULT_EXIT_CODE`, nonzero (R223). -/
  faultExitCode : Nat
  deriving DecidableEq, Repr, Inhabited

/-- An unknown table of opcode bytes: nothing can be proved about its entries (log entry 1). -/
opaque Config.rawOpcodes : OpcTable

/-- An unknown number, from which the unknown nonzero `FAULT_EXIT_CODE` is made (log entry 1). -/
opaque Config.rawFaultExit : Nat

/-- The unknown values that r0-r3, rint and flags hold at engine start under `RESET_REGS = Arbitrary`, by index
of the 16-bit view (R37, D20; log entry 2). -/
opaque Config.arbitraryReset : RegIdx → Word

end Sys2Proof
end

