-- ==== Sys2Proof/Machine/Bits.lean ====
section
/-! DEFINITION. Byte order and bit-field helpers: the two bytes of a word, a word from two bytes in a given order
(spec/20_memory.md R51, R52, R54), and the fields of the operand-specifier byte (spec/30_encoding.md R70, R71). -/

namespace Sys2Proof

/-- `v[15:8]`. -/
def hiByte (v : Word) : Byte := v.extractLsb' 8 8

/-- `v[7:0]`. -/
def loByte (v : Word) : Byte := v.extractLsb' 0 8

/-- The word `h ‖ l`. -/
def joinHiLo (h l : Byte) : Word := h ++ l

/-- The byte of `v` that lies at the lower index (R52). -/
def firstByte : ByteOrder → Word → Byte
  | .big, v => hiByte v
  | .little, v => loByte v

/-- The byte of `v` that lies at the higher index (R52). -/
def secondByte : ByteOrder → Word → Byte
  | .big, v => loByte v
  | .little, v => hiByte v

/-- The word whose bytes at ascending indices are `b0`, `b1` (R51). -/
def joinBytes : ByteOrder → Byte → Byte → Word
  | .big, b0, b1 => joinHiLo b0 b1
  | .little, b0, b1 => joinHiLo b1 b0

/-- The width bit, specifier bit 7 (R70). -/
def specW (sp : Byte) : Width := if sp.getLsbD 7 then .w16 else .w8

/-- The register-1 index, specifier bits 6-4 (R70). -/
def specR1 (sp : Byte) : RegIdx := (sp.extractLsb' 4 3).toFin

/-- The register-2 index, specifier bits 3-1 (R70). -/
def specR2 (sp : Byte) : RegIdx := (sp.extractLsb' 1 3).toFin

/-- The immediate bit, specifier bit 0 (R70). -/
def specI (sp : Byte) : Bool := sp.getLsbD 0

/-- The width bit of a width. -/
def widthBit : Width → Bool
  | .w8 => false
  | .w16 => true

/-- The specifier byte `w rrr sss i` (R70). -/
def specifier (w : Width) (r1 r2 : RegIdx) (i : Bool) : Byte :=
  BitVec.ofBool (widthBit w) ++ BitVec.ofFin (w := 3) r1 ++ BitVec.ofFin (w := 3) r2 ++ BitVec.ofBool i

end Sys2Proof
end

