-- ==== Sys2Proof/Machine/Params.lean ====
section
/-! DEFINITION. How the configuration parameters are read: the opcode map `OPC` and its inverse
(spec/30_encoding.md R72), the constraints on a configuration, the configuration of the core that
`State.reset` starts, and the newline byte. -/

namespace Sys2Proof

/-- `OPC` (R72): the three bytes the spec fixes, and the table's entry for every other mnemonic. -/
def opcOf (t : OpcTable) : Mnemonic → Byte
  | .add => 0x10
  | .inc => t.inc
  | .sub => t.sub
  | .dec => t.dec
  | .cmp => t.cmp
  | .mul => t.mul
  | .div => t.div
  | .not => t.not
  | .and => t.and
  | .or => t.or
  | .xor => t.xor
  | .shl => t.shl
  | .shr => t.shr
  | .ld => t.ld
  | .sd => t.sd
  | .lp => t.lp
  | .sp => t.sp
  | .set => 0x05
  | .push => t.push
  | .pull => t.pull
  | .jmp => t.jmp
  | .jiz => t.jiz
  | .jnz => t.jnz
  | .jin => t.jin
  | .jnn => t.jnn
  | .jic => t.jic
  | .jnc => t.jnc
  | .jio => t.jio
  | .jno => t.jno
  | .call => t.call
  | .retf => t.retf
  | .cfl => t.cfl
  | .czf => t.czf
  | .cnf => t.cnf
  | .ccf => t.ccf
  | .cof => t.cof
  | .szf => t.szf
  | .snf => t.snf
  | .scf => t.scf
  | .sof => t.sof
  | .wr => t.wr
  | .rd => t.rd
  | .int => t.int
  | .halt => t.halt
  | .nop => t.nop
  | .stop => 0x34

/-- The 43 mnemonics whose opcode byte is open (R72). -/
def openMnemonics : List Mnemonic :=
  ([.inc, .sub, .dec, .cmp, .mul, .div, .not, .and, .or] : List Mnemonic) ++
  ([.xor, .shl, .shr, .ld, .sd, .lp, .sp, .push, .pull] : List Mnemonic) ++
  ([.jmp, .jiz, .jnz, .jin, .jnn, .jic, .jnc, .jio, .jno] : List Mnemonic) ++
  ([.call, .retf, .cfl, .czf, .cnf, .ccf, .cof, .szf, .snf] : List Mnemonic) ++
  ([.scf, .sof, .wr, .rd, .int, .halt, .nop] : List Mnemonic)

/-- `OPC⁻¹` (R26, R72): the mnemonic of an opcode byte, none for an unknown opcode (R83). -/
def mnemonicOf (t : OpcTable) (b : Byte) : Option Mnemonic :=
  if b = 0x05 then some .set
  else if b = 0x10 then some .add
  else if b = 0x34 then some .stop
  else openMnemonics.find? (fun m => opcOf t m == b)

/-- The constraint on `OPC` that the three fixed bytes leave (R72): it is injective. -/
def OpcTable.wf (t : OpcTable) : Bool :=
  decide (((.set :: .add :: .stop :: openMnemonics).map (opcOf t)).Nodup)

/-- The constraints on a configuration: `OPC` is injective (R72) and `FAULT_EXIT_CODE` is nonzero (R223). -/
def Config.wf (c : Config) : Bool :=
  c.opc.wf && c.faultExitCode != 0

/-- One table that meets the constraint, so that the constraint is known to be satisfiable. Its numbering means
nothing: no source gives it (log entry 1). -/
def witnessOpcodes : OpcTable where
  inc := 0x80
  sub := 0xA5
  dec := 0xCA
  cmp := 0xEF
  mul := 0x94
  div := 0xB9
  not := 0xDE
  and := 0x83
  or := 0xA8
  xor := 0xCD
  shl := 0xF2
  shr := 0x97
  ld := 0xBC
  sd := 0xE1
  lp := 0x86
  sp := 0xAB
  push := 0xD0
  pull := 0xF5
  jmp := 0x9A
  jiz := 0xBF
  jnz := 0xE4
  jin := 0x89
  jnn := 0xAE
  jic := 0xD3
  jnc := 0xF8
  jio := 0x9D
  jno := 0xC2
  call := 0xE7
  retf := 0x8C
  cfl := 0xB1
  czf := 0xD6
  cnf := 0xFB
  ccf := 0xA0
  cof := 0xC5
  szf := 0xEA
  snf := 0x8F
  scf := 0xB4
  sof := 0xD9
  wr := 0xFE
  rd := 0xA3
  int := 0xC8
  halt := 0xED
  nop := 0x92

/-- The opcode table of the core that `State.reset` starts: SOME table that meets the constraint. It is the unknown
`Config.rawOpcodes` where that meets the constraint, so every admissible table is a possible value and no theorem
can use one (R72, D1; DESIGN CHOICE, safe: log entry 1). -/
def machineOpcodes : OpcTable :=
  if Config.rawOpcodes.wf then Config.rawOpcodes else witnessOpcodes

/-- The configuration of the core that `State.reset` starts: the spec's defaults (R7), an unknown admissible `OPC`
(D1) and an unknown nonzero `FAULT_EXIT_CODE` (D28). -/
def Config.machine : Config where
  opc := machineOpcodes
  unknownOpcodePolicy := .fault
  dataByteOrder := .big
  resetRegs := .zero
  faultExitCode := Config.rawFaultExit + 1

/-- The newline byte that ends a string `WR` (spec/44_io_misc.md R190, D25, G1; log entry 14). -/
def newlineByte : Byte := 0x0A

end Sys2Proof
end

