-- ==== Sys2Proof/Machine/State.lean ====
section
/-! DEFINITION. The state of the core as plain data (spec/10_state.md R20-R38), the reasons a step can stop, and the
state at engine start (R37, spec/70_reset_and_hazards.md R220). -/

namespace Sys2Proof.Machine

/-- The eight 16-bit cells of the register file (R20, R21). The 8-bit view adds no storage. -/
structure RegFile where
  /-- Index 0: general purpose. -/
  r0 : Word
  /-- Index 1: general purpose. -/
  r1 : Word
  /-- Index 2: general purpose. -/
  r2 : Word
  /-- Index 3: general purpose. -/
  r3 : Word
  /-- Index 4: the stack pointer, a byte index into DATA (R29). -/
  rsp : Word
  /-- Index 5: the program counter, a byte index into CODE (R25). -/
  rpp : Word
  /-- Index 6: the scratch register; no behaviour depends on it (R30). -/
  rint : Word
  /-- Index 7: the flags register (R31). -/
  flags : Word
  deriving DecidableEq, Repr

/-- One segment of 65536 bytes (R34): the bytes that differ from the 0 an unlisted index reads as (R37), by strictly
rising index. `Memory.wf` of Machine/Ops.lean states this form. -/
abbrev Memory := List Host.Cell

/-- The two address spaces (spec/20_memory.md R50). -/
inductive Segment where
  | code
  | data
  deriving DecidableEq, Repr

/-- The five defined bits of the flags register (R31). -/
inductive Flag where
  | z
  | n
  | c
  | o
  | ie
  deriving DecidableEq, Repr

/-- The kinds of fault (spec/60_exceptions.md R200). -/
inductive FaultKind where
  | outOfBounds
  | divisionByZero
  | stackUnderflow
  | unknownOpcode
  deriving DecidableEq, Repr

/-- The run status (R35, R201). -/
inductive RunStatus where
  | running
  | halted
  | faulted (kind : FaultKind) (pc : Word) (opcode : Byte)
  deriving DecidableEq, Repr

/-- The state of the core. `cfg` is the model's own field: the configuration the rules take as an argument (R7), which
no step changes (log entry 1); every other field is the spec's, and R38 says there is no more. -/
structure State where
  /-- The configuration parameters (R7, D28). -/
  cfg : Config
  /-- The register file (R20, R21). -/
  regs : RegFile
  /-- The code segment (R34). -/
  code : Memory
  /-- The data segment (R34). -/
  data : Memory
  /-- The run status (R35). -/
  status : RunStatus
  /-- The output stream, oldest byte first (R36). -/
  output : List Byte
  deriving DecidableEq, Repr

/-- Why no step is taken. The spec's own faults are no constructors here: raising one is a next state whose status is
`Faulted` (R201). -/
inductive Fault where
  /-- Raised by `step` in a state whose status is `Halted`: R35 says that no step is taken from it. Safe: the spec
  gives no further state. -/
  | coreHalted
  /-- Raised by `step` in a state whose status is `Faulted`: R35 says that no step is taken from it. Safe: the spec
  gives no further state. -/
  | coreFaulted
  deriving DecidableEq, Repr

/-- Why an instruction has no meaning. -/
inductive Refusal where
  /-- Raised by `exec` for an instruction whose meaning is not written yet. No arm of this model raises it. Safe: the
  machine stops. -/
  | notModelled (mnemonic : String)
  deriving DecidableEq, Repr

/-- What a meaning answers. -/
abbrev Result := Host.Outcome State Fault Refusal

/-- The register file at engine start (R37): pc and rsp are 0; r0-r3, rint and flags are 0 under `RESET_REGS = Zero`
and unknown values under `Arbitrary` (log entry 2). -/
def RegFile.start : ResetRegs → RegFile
  | .zero => { r0 := 0, r1 := 0, r2 := 0, r3 := 0, rsp := 0, rpp := 0, rint := 0, flags := 0 }
  | .arbitrary =>
    { r0 := Config.arbitraryReset 0, r1 := Config.arbitraryReset 1, r2 := Config.arbitraryReset 2,
      r3 := Config.arbitraryReset 3, rsp := 0, rpp := 0, rint := Config.arbitraryReset 6,
      flags := Config.arbitraryReset 7 }

/-- The state at engine start under a configuration, with empty images: both segments all zero, status `Running`, no
output (R37, R220). -/
def State.start (c : Config) : State where
  cfg := c
  regs := RegFile.start c.resetRegs
  code := []
  data := []
  status := .running
  output := []

/-- The machine right after reset: engine start under the default configuration (R7, R37). -/
def State.reset : State := State.start Config.machine

end Sys2Proof.Machine
end

