-- ==== Sys2Proof/Machine/Ops.lean ====
section
/-! DEFINITION. The named operations over registers, memory, the stack, the run status and the output, which every
meaning is written with (spec/10_state.md, spec/20_memory.md, spec/60_exceptions.md R201). -/

namespace Sys2Proof.Machine

/-! ## Registers -/

/-- Read a cell of the register file by its index in the 16-bit view (R20). -/
def RegFile.get (r : RegFile) : RegIdx → Word
  | 0 => r.r0
  | 1 => r.r1
  | 2 => r.r2
  | 3 => r.r3
  | 4 => r.rsp
  | 5 => r.rpp
  | 6 => r.rint
  | 7 => r.flags

/-- Write a cell of the register file by its index in the 16-bit view (R20). -/
def RegFile.put (r : RegFile) (i : RegIdx) (v : Word) : RegFile :=
  match i with
  | 0 => { r with r0 := v }
  | 1 => { r with r1 := v }
  | 2 => { r with r2 := v }
  | 3 => { r with r3 := v }
  | 4 => { r with rsp := v }
  | 5 => { r with rpp := v }
  | 6 => { r with rint := v }
  | 7 => { r with flags := v }

/-- `x[i]`: a read of the 16-bit view (R20). -/
def State.x (s : State) (i : RegIdx) : Word := s.regs.get i

/-- `x[i] <- v`: a write of the 16-bit view replaces all 16 bits (R24). -/
def State.setX (s : State) (i : RegIdx) (v : Word) : State := { s with regs := s.regs.put i v }

/-- `x8[i]`: the low byte of r0-r3 at 0-3, their high byte at 4-7 (R22). -/
def State.x8 (s : State) (i : RegIdx) : Byte :=
  if i.val < 4 then loByte (s.x i) else hiByte (s.x (i - 4))

/-- `x8[i] <- v`: a write of the 8-bit view changes only the 8 bits it names (R24). -/
def State.setX8 (s : State) (i : RegIdx) (v : Byte) : State :=
  if i.val < 4 then s.setX i (joinHiLo (hiByte (s.x i)) v)
  else s.setX (i - 4) (joinHiLo v (loByte (s.x (i - 4))))

/-- `xw[i]`: the view that the width selects (R23). -/
def State.xw (s : State) (w : Width) (i : RegIdx) : BitVec w.bits :=
  match w with
  | .w8 => s.x8 i
  | .w16 => s.x i

/-- `xw[i] <- v` (R23, R24). -/
def State.setXw (s : State) (w : Width) (i : RegIdx) (v : BitVec w.bits) : State :=
  match w, v with
  | .w8, v => s.setX8 i v
  | .w16, v => s.setX i v

/-- The program counter, `x[5]` (R25). -/
def State.pc (s : State) : Word := s.x RegIdx.rpp

/-- `pc <- t` (R28). -/
def State.setPc (s : State) (t : Word) : State := s.setX RegIdx.rpp t

/-- `pc <- (pc + n) mod 2^16` (R26, R27, R76). -/
def State.advance (s : State) (n : Nat) : State := s.setPc (s.pc + BitVec.ofNat 16 n)

/-- The stack pointer, `x[4]` (R29). -/
def State.rsp (s : State) : Word := s.x RegIdx.rsp

/-- `rsp <- v` (R29). -/
def State.setRsp (s : State) (v : Word) : State := s.setX RegIdx.rsp v

/-! ## Memory -/

/-- What an index that a segment does not list reads as: the zero padding of R37 and R221. -/
def unlistedByte : Byte := 0

/-- The canonical form of a segment: indices strictly rising, all in range (R34), no entry equal to what an unlisted
index reads as. -/
def Memory.wf : Memory → Bool
  | [] => true
  | [(a, v)] => decide (a < 65536) && v != unlistedByte
  | (a, v) :: (b, w) :: m => decide (a < b) && v != unlistedByte && Memory.wf ((b, w) :: m)

/-- The byte of a segment at an index (R34, R57). -/
def Memory.read : Memory → Nat → Byte
  | [], _ => unlistedByte
  | (b, w) :: m, a => if a = b then w else Memory.read m a

/-- List a byte at its place in the order, in place of an entry for the same index. -/
def Memory.insert : Memory → Nat → Byte → Memory
  | [], a, v => [(a, v)]
  | (b, w) :: m, a, v =>
    if a < b then (a, v) :: (b, w) :: m
    else if a = b then (a, v) :: m
    else (b, w) :: Memory.insert m a v

/-- Take an index off the list. -/
def Memory.erase (m : Memory) (a : Nat) : Memory := m.filter (fun c => c.1 != a)

/-- Write one byte of a segment (R52, R57), keeping the canonical form. -/
def Memory.write (m : Memory) (a : Nat) (v : Byte) : Memory :=
  if v = unlistedByte then m.erase a else m.insert a v

/-- Whether an access of W/8 bytes at `addr` stays at or below index 0xFFFF; `addr + n - 1` does not wrap (R53). -/
def inBounds (addr : Word) (w : Width) : Bool := decide (addr.toNat + w.bytes - 1 ≤ 0xFFFF)

/-- The W/8 bytes at `addr` in a byte order, without the bounds check (R51). -/
def Memory.readW (o : ByteOrder) (m : Memory) (addr : Word) (w : Width) : BitVec w.bits :=
  match w with
  | .w8 => m.read addr.toNat
  | .w16 => joinBytes o (m.read addr.toNat) (m.read (addr.toNat + 1))

/-- Write W/8 bytes at `addr` in a byte order, without the bounds check (R52). -/
def Memory.writeW (o : ByteOrder) (m : Memory) (addr : Word) (w : Width) (v : BitVec w.bits) : Memory :=
  match w, v with
  | .w8, v => m.write addr.toNat v
  | .w16, v => (m.write addr.toNat (firstByte o v)).write (addr.toNat + 1) (secondByte o v)

/-- A segment of the state (R50). -/
def State.seg (s : State) : Segment → Memory
  | .code => s.code
  | .data => s.data

/-- Replace a segment of the state. -/
def State.setSeg (s : State) (g : Segment) (m : Memory) : State :=
  match g with
  | .code => { s with code := m }
  | .data => { s with data := m }

/-- `MemRead(seg, addr, W/8)`; none is `Fault(OutOfBounds)` (R51, R53). -/
def State.memRead (s : State) (g : Segment) (addr : Word) (w : Width) : Option (BitVec w.bits) :=
  if inBounds addr w then some ((s.seg g).readW s.cfg.dataByteOrder addr w) else none

/-- `MemWrite(seg, addr, W/8, v)`; none is `Fault(OutOfBounds)` (R52, R53). -/
def State.memWrite (s : State) (g : Segment) (addr : Word) (w : Width) (v : BitVec w.bits) : Option State :=
  if inBounds addr w then some (s.setSeg g ((s.seg g).writeW s.cfg.dataByteOrder addr w v)) else none

/-! ## The stack -/

/-- Push a W-bit value, high byte first whatever `DATA_BYTE_ORDER` says: write at rsp, then increment it; none is
`Fault(OutOfBounds)` (R29, R54, spec/41_transfer.md R135). -/
def State.push (s : State) (w : Width) (v : BitVec w.bits) : Option State :=
  if inBounds s.rsp w then
    some (({ s with data := s.data.writeW .big s.rsp w v } : State).setRsp (s.rsp + BitVec.ofNat 16 w.bytes))
  else none

/-- Whether the stack holds the W/8 bytes of a pull; if not, it is `Fault(StackUnderflow)` (R136). -/
def State.canPull (s : State) (w : Width) : Bool := decide (w.bytes ≤ s.rsp.toNat)

/-- The state of a pull after rsp is decremented (R136). -/
def State.popped (s : State) (w : Width) : State := s.setRsp (s.rsp - BitVec.ofNat 16 w.bytes)

/-- The W-bit value on top of the stack, read at the decremented rsp, high byte first (R54, R136). The pulled bytes lie
below rsp, so no bounds check is needed. -/
def State.top (s : State) (w : Width) : BitVec w.bits := s.data.readW .big (s.popped w).rsp w

/-! ## Run status, faults, output -/

/-- TAKING A FAULT (R201, R202): the state before the instruction, its pc still a0, with the status set to
`Faulted(kind, a0, CODE[a0])`; nothing else changes. The status is terminal, so there is no return from it (R204). -/
def State.takeFault (s : State) (k : FaultKind) : State :=
  { s with status := .faulted k s.pc (s.code.read s.pc.toNat) }

/-- `raise Fault(kind)` in an instruction that began in `s` (R201). -/
def raise (k : FaultKind) (s : State) : Result := .next (s.takeFault k)

/-- Complete with a state, or raise a fault in the state the instruction began in (R201, R202). -/
def orRaise (k : FaultKind) (s : State) : Option State → Result
  | some t => .next t
  | none => raise k s

/-- `halt` (R35). -/
def State.halt (s : State) : State := { s with status := .halted }

/-- `Out(b)` for each byte in turn (R36). -/
def State.out (s : State) (bs : List Byte) : State := { s with output := s.output ++ bs }

/-- The bytes of a segment from index `a` up to the first NUL, which is not one of them; none if there is no NUL among
the next `k` bytes (spec/44_io_misc.md R190). -/
def Memory.string (m : Memory) : Nat → Nat → Option (List Byte)
  | 0, _ => none
  | k + 1, a => if m.read a = 0 then some [] else (Memory.string m k (a + 1)).map (m.read a :: ·)

/-- The NUL-terminated run of DATA bytes that starts at `addr`; none if the segment ends first (R190). -/
def State.cString (s : State) (addr : Word) : Option (List Byte) :=
  Memory.string s.data (0x10000 - addr.toNat) addr.toNat

end Sys2Proof.Machine
end

