-- ==== Sys2Proof/Machine/Flags.lean ====
section
/-! DEFINITION. The flags register's bits and every flag computation of the spec (spec/10_state.md R31-R33,
spec/40_alu.md R100-R114). -/

namespace Sys2Proof.Machine

/-- The bit of a flag in the flags register (R31, D4; log entry 5). -/
def Flag.bit : Flag → Nat
  | .z => 0
  | .n => 1
  | .c => 2
  | .o => 3
  | .ie => 4

/-- Read a flag (R31). -/
def State.flag (s : State) (f : Flag) : Bool := (s.x RegIdx.flags).getLsbD f.bit

/-- Set or clear one bit of a word and leave the others. -/
def putBit (v : Word) (k : Nat) (b : Bool) : Word :=
  if b then v ||| BitVec.twoPow 16 k else v &&& ~~~ BitVec.twoPow 16 k

/-- `F <- b`: assign one flag and leave the other bits of the flags register unchanged (R32, R33). -/
def State.setFlag (s : State) (f : Flag) (b : Bool) : State :=
  s.setX RegIdx.flags (putBit (s.x RegIdx.flags) f.bit b)

/-- The carry of ADD and INC: the exact sum exceeds `M_W` (R100, R101, R114). -/
def carryAdd (n a b : Nat) : Bool := decide (a + b > 2 ^ n - 1)

/-- The negative flag of SUB, DEC and CMP: the exact difference of the two's-complement readings is below 0
(R102-R104, R114, D8; log entry 8). -/
def negSub {n : Nat} (a : BitVec n) (b : Int) : Bool := decide (a.toInt - b < 0)

/-- The zero flag of a W-bit result. -/
def isZero {n : Nat} (v : BitVec n) : Bool := decide (v = 0)

/-- The exact unsigned product (R105, R114, D9). -/
def product {n : Nat} (a b : BitVec n) : Nat := a.toNat * b.toNat

/-- `p[W-1:0]` (R105). -/
def lowHalf (n p : Nat) : BitVec n := BitVec.ofNat n p

/-- `p[2W-1:W]` (R105). -/
def highHalf (n p : Nat) : BitVec n := BitVec.ofNat n (p / 2 ^ n)

/-- MUL's carry, "product exceeds width×2 capacity": it never holds (R105). -/
def carryMul (n p : Nat) : Bool := decide (p ≥ 2 ^ (2 * n))

end Sys2Proof.Machine
end

