-- ==== Sys2Proof/Machine/Operands.lean ====
section
/-! DEFINITION. The operand forms (spec/30_encoding.md R74-R81): each gives the operand's value and the state after the
immediate, if there is one, has been consumed. The immediate's value is the instruction's own (log entry 4). -/

namespace Sys2Proof.Machine

/-- `Src2`: a W-bit immediate, or register-2 sized per `w` (R77). -/
def src2 (w : Width) (o : Src) (s : State) : BitVec w.bits × State :=
  match o with
  | .imm v => (v.setWidth w.bits, s.advance w.bytes)
  | .reg r => (s.xw w r, s)

/-- `Addr2`: a 16-bit immediate address, or the 16-bit view of register-2, whatever `w` says (R78). -/
def addr2 (o : Src) (s : State) : Word × State :=
  match o with
  | .imm v => (v, s.advance 2)
  | .reg r => (s.x r, s)

/-- `Tgt`: a 16-bit immediate, or the 16-bit view of register-1 (R79). -/
def tgt (o : Src) (s : State) : Word × State :=
  match o with
  | .imm v => (v, s.advance 2)
  | .reg r => (s.x r, s)

/-- `Opd1`: an 8-bit immediate, or the 8-bit view of register-1 (R80). -/
def opd1 (o : Src) (s : State) : Byte × State :=
  match o with
  | .imm v => (loByte v, s.advance 1)
  | .reg r => (s.x8 r, s)

/-- The shape of an instruction with operand 1 `xw[r1]` and operand 2 `Src2`: the +2 advance (R26), operand 1 read
first, operand 2 resolved next, and then `k` with both values and the state after it (R81). -/
def withSrc2 (w : Width) (r1 : RegIdx) (o : Src) (s : State) (k : BitVec w.bits → BitVec w.bits → State → State) :
    Result :=
  let s1 := s.advance 2
  let b := src2 w o s1
  .next (k (s1.xw w r1) b.1 b.2)

/-- The shape of an instruction with the one operand `xw[r1]` (R74). -/
def withReg (w : Width) (r1 : RegIdx) (s : State) (k : BitVec w.bits → State → State) : Result :=
  let s1 := s.advance 2
  .next (k (s1.xw w r1) s1)

end Sys2Proof.Machine
end

