-- ==== Sys2Proof/Machine/Alu.lean ====
section
/-! DEFINITION. Arithmetic and logic (spec/40_alu.md R100-R115). Writes come in the order of R113: register-1, register-2,
the flags. A state given to a meaning has its pc at the instruction word, `a0`. -/

namespace Sys2Proof.Machine

/-- R100 ADD: the wrapped sum; C the carry out, Z of the wrapped sum. -/
def execAdd (w : Width) (r1 : RegIdx) (src : Src) (s : State) : Result :=
  withSrc2 w r1 src s fun a b t =>
    ((t.setXw w r1 (a + b)).setFlag .c (carryAdd w.bits a.toNat b.toNat)).setFlag .z (isZero (a + b))

/-- R101 INC: ADD of 1. -/
def execInc (w : Width) (r1 : RegIdx) (s : State) : Result :=
  withReg w r1 s fun a t =>
    ((t.setXw w r1 (a + 1)).setFlag .c (carryAdd w.bits a.toNat 1)).setFlag .z (isZero (a + 1))

/-- R102 SUB: the wrapped difference; N of the exact signed difference, Z of the wrapped one. -/
def execSub (w : Width) (r1 : RegIdx) (src : Src) (s : State) : Result :=
  withSrc2 w r1 src s fun a b t =>
    ((t.setXw w r1 (a - b)).setFlag .n (negSub a b.toInt)).setFlag .z (isZero (a - b))

/-- R103 DEC: the wrapped decrement; N of the exact signed difference, Z of the wrapped one. -/
def execDec (w : Width) (r1 : RegIdx) (s : State) : Result :=
  withReg w r1 s fun a t =>
    ((t.setXw w r1 (a - 1)).setFlag .n (negSub a 1)).setFlag .z (isZero (a - 1))

/-- R104 CMP: the flags of SUB, no register written. -/
def execCmp (w : Width) (r1 : RegIdx) (src : Src) (s : State) : Result :=
  withSrc2 w r1 src s fun a b t =>
    (t.setFlag .n (negSub a b.toInt)).setFlag .z (decide (a = b))

/-- R105 MUL: the exact unsigned product, its low half to register-1 and then its high half to register-2; C is always
0, Z of the whole product, O whether the high half is nonzero. -/
def execMul (w : Width) (r1 r2 : RegIdx) (s : State) : Result :=
  withReg w r1 s fun a t =>
    let p := product a (t.xw w r2)
    ((((t.setXw w r1 (lowHalf w.bits p)).setXw w r2 (highHalf w.bits p)).setFlag .c (carryMul w.bits p)).setFlag
      .z (decide (p = 0))).setFlag .o (!isZero (highHalf w.bits p))

/-- R106 DIV: the unsigned quotient to register-1 and then the remainder to register-2; Z of the quotient, C whether the
remainder is nonzero. A zero divisor raises `Fault(DivisionByZero)`. -/
def execDiv (w : Width) (r1 r2 : RegIdx) (s : State) : Result :=
  let t := s.advance 2
  let a := t.xw w r1
  let b := t.xw w r2
  if b = 0 then raise .divisionByZero s
  else
    .next ((((t.setXw w r1 (a / b)).setXw w r2 (a % b)).setFlag .z (isZero (a / b))).setFlag .c (!isZero (a % b)))

/-- R107 NOT: the W-bit complement; Z. -/
def execNot (w : Width) (r1 : RegIdx) (s : State) : Result :=
  withReg w r1 s fun a t => (t.setXw w r1 (~~~a)).setFlag .z (isZero (~~~a))

/-- R108 AND; Z. -/
def execAnd (w : Width) (r1 : RegIdx) (src : Src) (s : State) : Result :=
  withSrc2 w r1 src s fun a b t => (t.setXw w r1 (a &&& b)).setFlag .z (isZero (a &&& b))

/-- R109 OR; Z. -/
def execOr (w : Width) (r1 : RegIdx) (src : Src) (s : State) : Result :=
  withSrc2 w r1 src s fun a b t => (t.setXw w r1 (a ||| b)).setFlag .z (isZero (a ||| b))

/-- R110 XOR; Z. -/
def execXor (w : Width) (r1 : RegIdx) (src : Src) (s : State) : Result :=
  withSrc2 w r1 src s fun a b t => (t.setXw w r1 (a ^^^ b)).setFlag .z (isZero (a ^^^ b))

/-- R111 SHL: logical shift left by one bit, the bit shifted out is lost; Z. -/
def execShl (w : Width) (r1 : RegIdx) (s : State) : Result :=
  withReg w r1 s fun a t => (t.setXw w r1 (a <<< 1)).setFlag .z (isZero (a <<< 1))

/-- R112 SHR: logical shift right by one bit; Z. -/
def execShr (w : Width) (r1 : RegIdx) (s : State) : Result :=
  withReg w r1 s fun a t => (t.setXw w r1 (a >>> 1)).setFlag .z (isZero (a >>> 1))

end Sys2Proof.Machine
end

