-- ==== Sys2Proof/Machine/Control.lean ====
section
/-! DEFINITION. Control flow (spec/42_control.md R150-R163). Targets are absolute 16-bit code indices, consumed whether
or not the jump is taken (R161). A state given to a meaning has its pc at the instruction word, `a0`. -/

namespace Sys2Proof.Machine

/-- The shape of the jumps: the target is resolved, and pc redirected if the condition holds of the flags (R161). -/
def jumpIf (cond : State → Bool) (o : Src) (s : State) : Result :=
  let t := tgt o (s.advance 2)
  .next (if cond t.2 then t.2.setPc t.1 else t.2)

/-- R150 JMP. -/
def execJmp (o : Src) (s : State) : Result := jumpIf (fun _ => true) o s

/-- R151 JIZ: jump if Z = 1. -/
def execJiz (o : Src) (s : State) : Result := jumpIf (fun t => t.flag .z) o s

/-- R152 JNZ: jump if Z = 0. -/
def execJnz (o : Src) (s : State) : Result := jumpIf (fun t => !t.flag .z) o s

/-- R153 JIN: jump if N = 1. -/
def execJin (o : Src) (s : State) : Result := jumpIf (fun t => t.flag .n) o s

/-- R154 JNN: jump if N = 0. -/
def execJnn (o : Src) (s : State) : Result := jumpIf (fun t => !t.flag .n) o s

/-- R155 JIC: jump if C = 1. -/
def execJic (o : Src) (s : State) : Result := jumpIf (fun t => t.flag .c) o s

/-- R156 JNC: jump if C = 0. -/
def execJnc (o : Src) (s : State) : Result := jumpIf (fun t => !t.flag .c) o s

/-- R157 JIO: jump if O = 1. -/
def execJio (o : Src) (s : State) : Result := jumpIf (fun t => t.flag .o) o s

/-- R158 JNO: jump if O = 0. -/
def execJno (o : Src) (s : State) : Result := jumpIf (fun t => !t.flag .o) o s

/-- R159 CALL: the return address, the pc after the target's immediate, is pushed high byte first; then pc is
redirected. -/
def execCall (o : Src) (s : State) : Result :=
  let t := tgt o (s.advance 2)
  orRaise .outOfBounds s ((t.2.push .w16 t.2.pc).map (fun u => u.setPc t.1))

/-- R160 RETF: pop the 16-bit return address and jump to it; `Fault(StackUnderflow)` where rsp < 2. -/
def execRetf (s : State) : Result :=
  let t := s.advance 2
  if t.canPull .w16 then .next ((t.popped .w16).setPc (t.top .w16)) else raise .stackUnderflow s

end Sys2Proof.Machine
end

