-- ==== Sys2Proof/Machine/FlagOps.lean ====
section
/-! DEFINITION. Flag management (spec/43_flagops.md R170-R179): no operand, no exception, only the named bits change. -/

namespace Sys2Proof.Machine

/-- R170 CFL: clear Z, N, C and O. -/
def execCfl (s : State) : Result :=
  .next (((((s.advance 2).setFlag .z false).setFlag .n false).setFlag .c false).setFlag .o false)

/-- R171 CZF: clear Z. -/
def execCzf (s : State) : Result := .next ((s.advance 2).setFlag .z false)

/-- R172 CNF: clear N. -/
def execCnf (s : State) : Result := .next ((s.advance 2).setFlag .n false)

/-- R173 CCF: clear C. -/
def execCcf (s : State) : Result := .next ((s.advance 2).setFlag .c false)

/-- R174 COF: clear O. -/
def execCof (s : State) : Result := .next ((s.advance 2).setFlag .o false)

/-- R175 SZF: set Z. -/
def execSzf (s : State) : Result := .next ((s.advance 2).setFlag .z true)

/-- R176 SNF: set N. -/
def execSnf (s : State) : Result := .next ((s.advance 2).setFlag .n true)

/-- R177 SCF: set C. -/
def execScf (s : State) : Result := .next ((s.advance 2).setFlag .c true)

/-- R178 SOF: set O. -/
def execSof (s : State) : Result := .next ((s.advance 2).setFlag .o true)

end Sys2Proof.Machine
end

