-- ==== Sys2Proof/Machine/Io.lean ====
section
/-! DEFINITION. I/O and miscellaneous (spec/44_io_misc.md R190-R195). -/

namespace Sys2Proof.Machine

/-- R190 WR. String mode (w = 1): the NUL-terminated DATA bytes at `Tgt`, then a newline; no NUL before the segment top
is `Fault(OutOfBounds)` with nothing output. Character mode (w = 0): the byte `Opd1`. -/
def execWr (w : Width) (o : Src) (s : State) : Result :=
  match w with
  | .w16 =>
    let t := tgt o (s.advance 2)
    orRaise .outOfBounds s ((t.2.cString t.1).map (fun bs => t.2.out (bs ++ [newlineByte])))
  | .w8 =>
    let t := opd1 o (s.advance 2)
    .next (t.2.out [t.1])

/-- R191 RD: inert, only the +2 advance. -/
def execRd (s : State) : Result := .next (s.advance 2)

/-- R192 INT: inert, only the +2 advance. -/
def execInt (s : State) : Result := .next (s.advance 2)

/-- R193 HALT: inert despite its name, only the +2 advance. -/
def execHalt (s : State) : Result := .next (s.advance 2)

/-- R194 NOP: only the +2 advance. -/
def execNop (s : State) : Result := .next (s.advance 2)

/-- R195 STOP: the status becomes `Halted`, after the +2 advance. -/
def execStop (s : State) : Result := .next (s.advance 2).halt

end Sys2Proof.Machine
end

