-- ==== Sys2Proof/Machine/Transfer.lean ====
section
/-! DEFINITION. Memory transfer (spec/41_transfer.md R130-R137). No flag is written, but by naming 16-bit register 7 as
the destination. A state given to a meaning has its pc at the instruction word, `a0`. -/

namespace Sys2Proof.Machine

/-- R130 LD: load from DATA at the 16-bit view of register-2. -/
def execLd (w : Width) (r1 r2 : RegIdx) (s : State) : Result :=
  let t := s.advance 2
  orRaise .outOfBounds s ((t.memRead .data (t.x r2) w).map (t.setXw w r1))

/-- R131 SD: store `xw[r1]` to DATA at `Addr2`. -/
def execSd (w : Width) (r1 : RegIdx) (addr : Src) (s : State) : Result :=
  let t := s.advance 2
  let a := addr2 addr t
  orRaise .outOfBounds s (a.2.memWrite .data a.1 w (t.xw w r1))

/-- R132 LP: load from CODE at `Addr2`. -/
def execLp (w : Width) (r1 : RegIdx) (addr : Src) (s : State) : Result :=
  let a := addr2 addr (s.advance 2)
  orRaise .outOfBounds s ((a.2.memRead .code a.1 w).map (a.2.setXw w r1))

/-- R133 SP: store `xw[r1]` to CODE at `Addr2`; the next fetch sees it (R62). -/
def execSp (w : Width) (r1 : RegIdx) (addr : Src) (s : State) : Result :=
  let t := s.advance 2
  let a := addr2 addr t
  orRaise .outOfBounds s (a.2.memWrite .code a.1 w (t.xw w r1))

/-- R134 SET: load a register from `Src2`, no flag effect. -/
def execSet (w : Width) (r1 : RegIdx) (src : Src) (s : State) : Result :=
  withSrc2 w r1 src s fun _ b t => t.setXw w r1 b

/-- R135 PUSH: push `xw[r1]`; the value is read before rsp moves. -/
def execPush (w : Width) (r1 : RegIdx) (s : State) : Result :=
  let t := s.advance 2
  orRaise .outOfBounds s (t.push w (t.xw w r1))

/-- R136 PULL: pull into `xw[r1]`; `Fault(StackUnderflow)` where the stack holds fewer than W/8 bytes. -/
def execPull (w : Width) (r1 : RegIdx) (s : State) : Result :=
  let t := s.advance 2
  if t.canPull w then .next ((t.popped w).setXw w r1 (t.top w)) else raise .stackUnderflow s

end Sys2Proof.Machine
end

