-- ==== Sys2Proof/Syntax.lean ====
section
/-! DEFINITION. The instructions: one constructor per row of spec/opcode_table.json, holding exactly the fields that
spec/30_encoding.md R74 says the instruction reads, with the immediate bytes that belong to it (R70). -/

namespace Sys2Proof

/-- An instruction (R73, R74). `w` is the width bit, `r1` and `r2` the register fields; a `Src` operand is the register
or immediate that the immediate bit chooses. Fields an instruction does not read (R82) are no part of it. -/
inductive Instr where
  -- arithmetic and logic (spec/40_alu.md)
  | add (w : Width) (r1 : RegIdx) (src : Src)
  | inc (w : Width) (r1 : RegIdx)
  | sub (w : Width) (r1 : RegIdx) (src : Src)
  | dec (w : Width) (r1 : RegIdx)
  | cmp (w : Width) (r1 : RegIdx) (src : Src)
  | mul (w : Width) (r1 r2 : RegIdx)
  | div (w : Width) (r1 r2 : RegIdx)
  | not (w : Width) (r1 : RegIdx)
  | and (w : Width) (r1 : RegIdx) (src : Src)
  | or (w : Width) (r1 : RegIdx) (src : Src)
  | xor (w : Width) (r1 : RegIdx) (src : Src)
  | shl (w : Width) (r1 : RegIdx)
  | shr (w : Width) (r1 : RegIdx)
  -- memory transfer (spec/41_transfer.md)
  | ld (w : Width) (r1 r2 : RegIdx)
  | sd (w : Width) (r1 : RegIdx) (addr : Src)
  | lp (w : Width) (r1 : RegIdx) (addr : Src)
  | sp (w : Width) (r1 : RegIdx) (addr : Src)
  | set (w : Width) (r1 : RegIdx) (src : Src)
  | push (w : Width) (r1 : RegIdx)
  | pull (w : Width) (r1 : RegIdx)
  -- control flow (spec/42_control.md)
  | jmp (tgt : Src)
  | jiz (tgt : Src)
  | jnz (tgt : Src)
  | jin (tgt : Src)
  | jnn (tgt : Src)
  | jic (tgt : Src)
  | jnc (tgt : Src)
  | jio (tgt : Src)
  | jno (tgt : Src)
  | call (tgt : Src)
  | retf
  -- flag management (spec/43_flagops.md)
  | cfl
  | czf
  | cnf
  | ccf
  | cof
  | szf
  | snf
  | scf
  | sof
  -- I/O and miscellaneous (spec/44_io_misc.md)
  | wr (w : Width) (opd : Src)
  | rd
  | int
  | halt
  | nop
  | stop
  deriving DecidableEq, Repr

end Sys2Proof
end

