-- ==== Sys2Proof/Machine/Dispatch.lean ====
section
/-! DEFINITION. One arm per instruction, each one call of its meaning (spec/30_encoding.md R73). -/

namespace Sys2Proof.Machine

def exec (i : Instr) (s : State) : Host.Outcome State Fault Refusal :=
  match i with
  | .add w r1 src => Sys2Proof.Machine.execAdd w r1 src s
  | .inc w r1 => Sys2Proof.Machine.execInc w r1 s
  | .sub w r1 src => Sys2Proof.Machine.execSub w r1 src s
  | .dec w r1 => Sys2Proof.Machine.execDec w r1 s
  | .cmp w r1 src => Sys2Proof.Machine.execCmp w r1 src s
  | .mul w r1 r2 => Sys2Proof.Machine.execMul w r1 r2 s
  | .div w r1 r2 => Sys2Proof.Machine.execDiv w r1 r2 s
  | .not w r1 => Sys2Proof.Machine.execNot w r1 s
  | .and w r1 src => Sys2Proof.Machine.execAnd w r1 src s
  | .or w r1 src => Sys2Proof.Machine.execOr w r1 src s
  | .xor w r1 src => Sys2Proof.Machine.execXor w r1 src s
  | .shl w r1 => Sys2Proof.Machine.execShl w r1 s
  | .shr w r1 => Sys2Proof.Machine.execShr w r1 s
  | .ld w r1 r2 => Sys2Proof.Machine.execLd w r1 r2 s
  | .sd w r1 addr => Sys2Proof.Machine.execSd w r1 addr s
  | .lp w r1 addr => Sys2Proof.Machine.execLp w r1 addr s
  | .sp w r1 addr => Sys2Proof.Machine.execSp w r1 addr s
  | .set w r1 src => Sys2Proof.Machine.execSet w r1 src s
  | .push w r1 => Sys2Proof.Machine.execPush w r1 s
  | .pull w r1 => Sys2Proof.Machine.execPull w r1 s
  | .jmp tgt => Sys2Proof.Machine.execJmp tgt s
  | .jiz tgt => Sys2Proof.Machine.execJiz tgt s
  | .jnz tgt => Sys2Proof.Machine.execJnz tgt s
  | .jin tgt => Sys2Proof.Machine.execJin tgt s
  | .jnn tgt => Sys2Proof.Machine.execJnn tgt s
  | .jic tgt => Sys2Proof.Machine.execJic tgt s
  | .jnc tgt => Sys2Proof.Machine.execJnc tgt s
  | .jio tgt => Sys2Proof.Machine.execJio tgt s
  | .jno tgt => Sys2Proof.Machine.execJno tgt s
  | .call tgt => Sys2Proof.Machine.execCall tgt s
  | .retf => Sys2Proof.Machine.execRetf s
  | .cfl => Sys2Proof.Machine.execCfl s
  | .czf => Sys2Proof.Machine.execCzf s
  | .cnf => Sys2Proof.Machine.execCnf s
  | .ccf => Sys2Proof.Machine.execCcf s
  | .cof => Sys2Proof.Machine.execCof s
  | .szf => Sys2Proof.Machine.execSzf s
  | .snf => Sys2Proof.Machine.execSnf s
  | .scf => Sys2Proof.Machine.execScf s
  | .sof => Sys2Proof.Machine.execSof s
  | .wr w opd => Sys2Proof.Machine.execWr w opd s
  | .rd => Sys2Proof.Machine.execRd s
  | .int => Sys2Proof.Machine.execInt s
  | .halt => Sys2Proof.Machine.execHalt s
  | .nop => Sys2Proof.Machine.execNop s
  | .stop => Sys2Proof.Machine.execStop s

end Sys2Proof.Machine
end

