-- ==== Sys2Proof/WellFormed.lean ====
section
/-! DEFINITION. Which instruction terms stand for an encoding: an immediate has the width of the operand it feeds
(spec/30_encoding.md R76), so the immediate of an 8-bit operand is one byte. -/

namespace Sys2Proof

/-- A W-bit operand: an immediate fits in W bits (R76, R77, R80). A register field is always legal (R71). -/
def Src.fits : Width → Src → Bool
  | .w8, .imm v => decide (v.toNat < 256)
  | .w16, .imm _ => true
  | _, .reg _ => true

/-- A well-formed instruction: a W-bit immediate fits in W bits; addresses and targets are 16 bits whatever the width
bit says (R78, R79), and every other field is legal at every value (R71). -/
def Instr.wf : Instr → Bool
  | .add w _ src => src.fits w
  | .inc _ _ => true
  | .sub w _ src => src.fits w
  | .dec _ _ => true
  | .cmp w _ src => src.fits w
  | .mul _ _ _ => true
  | .div _ _ _ => true
  | .not _ _ => true
  | .and w _ src => src.fits w
  | .or w _ src => src.fits w
  | .xor w _ src => src.fits w
  | .shl _ _ => true
  | .shr _ _ => true
  | .ld _ _ _ => true
  | .sd _ _ _ => true
  | .lp _ _ _ => true
  | .sp _ _ _ => true
  | .set w _ src => src.fits w
  | .push _ _ => true
  | .pull _ _ => true
  | .jmp _ => true
  | .jiz _ => true
  | .jnz _ => true
  | .jin _ => true
  | .jnn _ => true
  | .jic _ => true
  | .jnc _ => true
  | .jio _ => true
  | .jno _ => true
  | .call _ => true
  | .retf => true
  | .cfl => true
  | .czf => true
  | .cnf => true
  | .ccf => true
  | .cof => true
  | .szf => true
  | .snf => true
  | .scf => true
  | .sof => true
  | .wr w opd => opd.fits w
  | .rd => true
  | .int => true
  | .halt => true
  | .nop => true
  | .stop => true

end Sys2Proof
end

