-- ==== Sys2Proof/Decode.lean ====
section
/-! DEFINITION. The decoder, from the bytes of the code stream to an instruction, total and rejecting by name
(spec/30_encoding.md R70-R83); after it the encoder, written from the same tables, and the decoder on the words of
spec/opcode_table.json. -/

namespace Sys2Proof

/-- Why bytes are no instruction: they end before it does, or the opcode byte is not in the image of `OPC` (R83). -/
inductive DecodeError where
  | truncated
  | unknownOpcode (op : Byte)
  deriving DecidableEq, Repr

/-- The number of immediate bytes an instruction consumes, by mnemonic and specifier byte: the last column of the
table of R74 (R75). -/
def immLen (m : Mnemonic) (sp : Byte) : Nat :=
  match m with
  | .add | .sub | .cmp | .and | .or | .xor | .set | .wr => if specI sp then (specW sp).bytes else 0
  | .sd | .lp | .sp => if specI sp then 2 else 0
  | .jmp | .jiz | .jnz | .jin | .jnn | .jic | .jnc | .jio | .jno | .call => if specI sp then 2 else 0
  | .inc | .dec | .mul | .div | .not | .shl | .shr | .ld | .push | .pull => 0
  | .retf | .cfl | .czf | .cnf | .ccf | .cof | .szf | .snf | .scf | .sof => 0
  | .rd | .int | .halt | .nop | .stop => 0

/-- Operand 2 of the two-operand forms, and the address of SD, LP and SP: register-2 or the immediate (R77, R78). -/
def srcReg2 (sp : Byte) (v : Word) : Src := if specI sp then .imm v else .reg (specR2 sp)

/-- The single operand of the jumps, CALL and WR: register-1 or the immediate (R79, R80, D13). -/
def srcReg1 (sp : Byte) (v : Word) : Src := if specI sp then .imm v else .reg (specR1 sp)

/-- The instruction of a mnemonic, a specifier byte and the value of its immediate (R74). -/
def buildInstr (m : Mnemonic) (sp : Byte) (v : Word) : Instr :=
  match m with
  | .add => .add (specW sp) (specR1 sp) (srcReg2 sp v)
  | .inc => .inc (specW sp) (specR1 sp)
  | .sub => .sub (specW sp) (specR1 sp) (srcReg2 sp v)
  | .dec => .dec (specW sp) (specR1 sp)
  | .cmp => .cmp (specW sp) (specR1 sp) (srcReg2 sp v)
  | .mul => .mul (specW sp) (specR1 sp) (specR2 sp)
  | .div => .div (specW sp) (specR1 sp) (specR2 sp)
  | .not => .not (specW sp) (specR1 sp)
  | .and => .and (specW sp) (specR1 sp) (srcReg2 sp v)
  | .or => .or (specW sp) (specR1 sp) (srcReg2 sp v)
  | .xor => .xor (specW sp) (specR1 sp) (srcReg2 sp v)
  | .shl => .shl (specW sp) (specR1 sp)
  | .shr => .shr (specW sp) (specR1 sp)
  | .ld => .ld (specW sp) (specR1 sp) (specR2 sp)
  | .sd => .sd (specW sp) (specR1 sp) (srcReg2 sp v)
  | .lp => .lp (specW sp) (specR1 sp) (srcReg2 sp v)
  | .sp => .sp (specW sp) (specR1 sp) (srcReg2 sp v)
  | .set => .set (specW sp) (specR1 sp) (srcReg2 sp v)
  | .push => .push (specW sp) (specR1 sp)
  | .pull => .pull (specW sp) (specR1 sp)
  | .jmp => .jmp (srcReg1 sp v)
  | .jiz => .jiz (srcReg1 sp v)
  | .jnz => .jnz (srcReg1 sp v)
  | .jin => .jin (srcReg1 sp v)
  | .jnn => .jnn (srcReg1 sp v)
  | .jic => .jic (srcReg1 sp v)
  | .jnc => .jnc (srcReg1 sp v)
  | .jio => .jio (srcReg1 sp v)
  | .jno => .jno (srcReg1 sp v)
  | .call => .call (srcReg1 sp v)
  | .retf => .retf
  | .cfl => .cfl
  | .czf => .czf
  | .cnf => .cnf
  | .ccf => .ccf
  | .cof => .cof
  | .szf => .szf
  | .snf => .snf
  | .scf => .scf
  | .sof => .sof
  | .wr => .wr (specW sp) (srcReg1 sp v)
  | .rd => .rd
  | .int => .int
  | .halt => .halt
  | .nop => .nop
  | .stop => .stop

/-- `Imm(n)` on a list of bytes: the immediate's value and the bytes after it, none where the bytes run out. A 1-byte
immediate is that byte; a 2-byte one is read in `DATA_BYTE_ORDER` (R76). -/
def takeImm (o : ByteOrder) : Nat → List Byte → Option (Word × List Byte)
  | 0, bs => some (0, bs)
  | 1, b :: bs => some (b.setWidth 16, bs)
  | 2, b0 :: b1 :: bs => some (joinBytes o b0 b1, bs)
  | _, _ => none

/-- The decoder (R26, R71, R72, R74, R75): the instruction at the front of the bytes and the bytes after it, or why
there is none. The checks come in the order of spec/60_exceptions.md R203: the word, the opcode, the immediate. -/
def decode (c : Config) : List Byte → Except DecodeError (Instr × List Byte)
  | op :: sp :: rest =>
    match mnemonicOf c.opc op with
    | none => .error (.unknownOpcode op)
    | some m =>
      match takeImm c.dataByteOrder (immLen m sp) rest with
      | none => .error .truncated
      | some (v, rest') => .ok (buildInstr m sp v, rest')
  | _ => .error .truncated

/-! ## The encoder -/

/-- The mnemonic of an instruction (R73). -/
def Instr.mnemonic : Instr → Mnemonic
  | .add _ _ _ => .add
  | .inc _ _ => .inc
  | .sub _ _ _ => .sub
  | .dec _ _ => .dec
  | .cmp _ _ _ => .cmp
  | .mul _ _ _ => .mul
  | .div _ _ _ => .div
  | .not _ _ => .not
  | .and _ _ _ => .and
  | .or _ _ _ => .or
  | .xor _ _ _ => .xor
  | .shl _ _ => .shl
  | .shr _ _ => .shr
  | .ld _ _ _ => .ld
  | .sd _ _ _ => .sd
  | .lp _ _ _ => .lp
  | .sp _ _ _ => .sp
  | .set _ _ _ => .set
  | .push _ _ => .push
  | .pull _ _ => .pull
  | .jmp _ => .jmp
  | .jiz _ => .jiz
  | .jnz _ => .jnz
  | .jin _ => .jin
  | .jnn _ => .jnn
  | .jic _ => .jic
  | .jnc _ => .jnc
  | .jio _ => .jio
  | .jno _ => .jno
  | .call _ => .call
  | .retf => .retf
  | .cfl => .cfl
  | .czf => .czf
  | .cnf => .cnf
  | .ccf => .ccf
  | .cof => .cof
  | .szf => .szf
  | .snf => .snf
  | .scf => .scf
  | .sof => .sof
  | .wr _ _ => .wr
  | .rd => .rd
  | .int => .int
  | .halt => .halt
  | .nop => .nop
  | .stop => .stop

/-- The specifier byte of `xw[r1], Src2` and `xw[r1], [Addr2]`; the register-2 field of an immediate form is 0 (R86). -/
def specTwo (w : Width) (r1 : RegIdx) : Src → Byte
  | .reg r2 => specifier w r1 r2 false
  | .imm _ => specifier w r1 0 true

/-- The specifier byte of a single operand in register-1 or immediate form (R79, R80, R86). -/
def specOne (w : Width) : Src → Byte
  | .reg r1 => specifier w r1 0 false
  | .imm _ => specifier w 0 0 true

/-- The canonical specifier byte: ignored fields 0, and the width bit of the jumps and CALL 1 (R86). -/
def Instr.spec : Instr → Byte
  | .add w r1 src => specTwo w r1 src
  | .inc w r1 => specifier w r1 0 false
  | .sub w r1 src => specTwo w r1 src
  | .dec w r1 => specifier w r1 0 false
  | .cmp w r1 src => specTwo w r1 src
  | .mul w r1 r2 => specifier w r1 r2 false
  | .div w r1 r2 => specifier w r1 r2 false
  | .not w r1 => specifier w r1 0 false
  | .and w r1 src => specTwo w r1 src
  | .or w r1 src => specTwo w r1 src
  | .xor w r1 src => specTwo w r1 src
  | .shl w r1 => specifier w r1 0 false
  | .shr w r1 => specifier w r1 0 false
  | .ld w r1 r2 => specifier w r1 r2 false
  | .sd w r1 addr => specTwo w r1 addr
  | .lp w r1 addr => specTwo w r1 addr
  | .sp w r1 addr => specTwo w r1 addr
  | .set w r1 src => specTwo w r1 src
  | .push w r1 => specifier w r1 0 false
  | .pull w r1 => specifier w r1 0 false
  | .jmp tgt => specOne .w16 tgt
  | .jiz tgt => specOne .w16 tgt
  | .jnz tgt => specOne .w16 tgt
  | .jin tgt => specOne .w16 tgt
  | .jnn tgt => specOne .w16 tgt
  | .jic tgt => specOne .w16 tgt
  | .jnc tgt => specOne .w16 tgt
  | .jio tgt => specOne .w16 tgt
  | .jno tgt => specOne .w16 tgt
  | .call tgt => specOne .w16 tgt
  | .retf => 0
  | .cfl => 0
  | .czf => 0
  | .cnf => 0
  | .ccf => 0
  | .cof => 0
  | .szf => 0
  | .snf => 0
  | .scf => 0
  | .sof => 0
  | .wr w opd => specOne w opd
  | .rd => 0
  | .int => 0
  | .halt => 0
  | .nop => 0
  | .stop => 0

/-- The immediate bytes of a W-bit operand (R76). -/
def encodeSrc (o : ByteOrder) : Width → Src → List Byte
  | _, .reg _ => []
  | .w8, .imm v => [loByte v]
  | .w16, .imm v => [firstByte o v, secondByte o v]

/-- The immediate bytes of an instruction: W bits for `Src2` and WR, 16 for an address or a target (R74). -/
def Instr.immBytes (o : ByteOrder) : Instr → List Byte
  | .add w _ src => encodeSrc o w src
  | .inc _ _ => []
  | .sub w _ src => encodeSrc o w src
  | .dec _ _ => []
  | .cmp w _ src => encodeSrc o w src
  | .mul _ _ _ => []
  | .div _ _ _ => []
  | .not _ _ => []
  | .and w _ src => encodeSrc o w src
  | .or w _ src => encodeSrc o w src
  | .xor w _ src => encodeSrc o w src
  | .shl _ _ => []
  | .shr _ _ => []
  | .ld _ _ _ => []
  | .sd _ _ addr => encodeSrc o .w16 addr
  | .lp _ _ addr => encodeSrc o .w16 addr
  | .sp _ _ addr => encodeSrc o .w16 addr
  | .set w _ src => encodeSrc o w src
  | .push _ _ => []
  | .pull _ _ => []
  | .jmp tgt => encodeSrc o .w16 tgt
  | .jiz tgt => encodeSrc o .w16 tgt
  | .jnz tgt => encodeSrc o .w16 tgt
  | .jin tgt => encodeSrc o .w16 tgt
  | .jnn tgt => encodeSrc o .w16 tgt
  | .jic tgt => encodeSrc o .w16 tgt
  | .jnc tgt => encodeSrc o .w16 tgt
  | .jio tgt => encodeSrc o .w16 tgt
  | .jno tgt => encodeSrc o .w16 tgt
  | .call tgt => encodeSrc o .w16 tgt
  | .retf => []
  | .cfl => []
  | .czf => []
  | .cnf => []
  | .ccf => []
  | .cof => []
  | .szf => []
  | .snf => []
  | .scf => []
  | .sof => []
  | .wr w opd => encodeSrc o w opd
  | .rd => []
  | .int => []
  | .halt => []
  | .nop => []
  | .stop => []

/-- The bytes of an instruction in its canonical encoding, the opcode byte first (R70, R86). -/
def encode (c : Config) (i : Instr) : List Byte :=
  opcOf c.opc i.mnemonic :: i.spec :: i.immBytes c.dataByteOrder

/-! ## The words of the opcode table -/

/-- The bytes, at ascending code indices, of an instruction whose bits are numbered as spec/opcode_table.json numbers
them: bits 15-8 are the opcode byte and bits 7-0 the specifier (R8, R70), stored in that order (R54); bits 31-16 are a
16-bit immediate, stored in `DATA_BYTE_ORDER`. Bits of `w` above `nbits` count as 0. -/
def tableBytes (o : ByteOrder) (nbits w : Nat) : List Byte :=
  let v := w % 2 ^ nbits
  let word := BitVec.ofNat 16 v
  let imm := BitVec.ofNat 16 (v / 2 ^ 16)
  [hiByte word, loByte word, firstByte o imm, secondByte o imm]

/-- What the decoder reads from a word of the opcode table, under the configuration `State.reset` starts with. -/
def decodeTableWord (nbits w : Nat) : Option Instr :=
  match decode Config.machine (tableBytes Config.machine.dataByteOrder nbits w) with
  | .ok (i, _) => some i
  | .error _ => none

end Sys2Proof
end

