-- ==== Sys2Proof/Machine/Fetch.lean ====
section
/-! DEFINITION. Fetching an instruction's bytes, what an unknown opcode does, and placing bytes at pc
(spec/10_state.md R26, spec/20_memory.md R53, spec/30_encoding.md R76, R83). -/

namespace Sys2Proof.Machine

/-- The bytes of a segment at index `a` and the next one, stopping at index 0xFFFF: what a 2-byte read at `a` may
touch (R53). -/
def Memory.pair (m : Memory) (a : Word) : List Byte :=
  if a.toNat + 1 ≤ 0xFFFF then [m.read a.toNat, m.read (a.toNat + 1)] else [m.read a.toNat]

/-- What the core can fetch at pc: the instruction word, and then the bytes at the advanced pc, which wraps mod 2^16
(R26, R27, R76). A word at 0xFFFF is cut off; so is a 2-byte immediate at 0xFFFF. -/
def State.fetchWindow (s : State) : List Byte :=
  if s.pc.toNat + 1 ≤ 0xFFFF then s.code.pair s.pc ++ s.code.pair (s.pc + 2) else s.code.pair s.pc

/-- An opcode byte outside the image of `OPC` (R83, R206): `Fault(UnknownOpcode)`, or only the +2 advance. -/
def unknownOpcode (s : State) : Result :=
  match s.cfg.unknownOpcodePolicy with
  | .fault => raise .unknownOpcode s
  | .nop => .next (s.advance 2)

/-- Bytes that are no instruction: an access past index 0xFFFF (R26, R53, R76), or an unknown opcode (R83). -/
def fetchFailed (e : DecodeError) (s : State) : Result :=
  match e with
  | .truncated => raise .outOfBounds s
  | .unknownOpcode _ => unknownOpcode s

/-- Store bytes in a segment at index `a` and the indices after it, which wrap mod 2^16 as pc does. -/
def Memory.place (m : Memory) : Word → List Byte → Memory
  | _, [] => m
  | a, b :: bs => Memory.place (m.write a.toNat b) (a + 1) bs

end Sys2Proof.Machine
end

