-- ==== Sys2Proof/Machine/Step.lean ====
section
/-! DEFINITION. One step (spec/10_state.md R26, R35), and placing an instruction where step fetches the next one. -/

namespace Sys2Proof.Machine

/-- One step of the execution cycle (R26). From `Halted` and `Faulted` no step is taken (R35). -/
def step (s : State) : Host.Outcome State Fault Refusal :=
  match s.status with
  | .halted => .fault .coreHalted
  | .faulted _ _ _ => .fault .coreFaulted
  | .running =>
    match decode s.cfg s.fetchWindow with
    | .ok (i, _) => exec i s
    | .error e => fetchFailed e s

/-- The state with an instruction of the opcode table stored at pc in CODE; nothing else changes (R221, R222; log
entry 3). -/
def State.withFetchWord (s : State) (nbits w : Nat) : State :=
  { s with code := s.code.place s.pc (tableBytes s.cfg.dataByteOrder nbits w) }

end Sys2Proof.Machine
end

