-- ==== Sys2Proof/Machine/Engine.lean ====
section
/-! DEFINITION. The host's part before the first step and after the last: loading the images and the engine's return
value (spec/70_reset_and_hazards.md R220-R223). -/

namespace Sys2Proof.Machine

/-- An image as segment contents: byte j at index j, zero-padded (R221). -/
def imageFrom : Nat → List Byte → Memory
  | _, [] => []
  | a, b :: bs => if b = unlistedByte then imageFrom (a + 1) bs else (a, b) :: imageFrom (a + 1) bs

/-- Load an image into a segment; none is the fatal load error of an image larger than the segment (R221). -/
def loadSegment (image : List Byte) : Option Memory :=
  if image.length ≤ 65536 then some (imageFrom 0 image) else none

/-- Engine start with a code image and an optional data image (R220, R221); none where the core never starts. -/
def State.load (c : Config) (codeImage : List Byte) (dataImage : Option (List Byte)) : Option State :=
  match loadSegment codeImage, loadSegment (dataImage.getD []) with
  | some code, some data => some { State.start c with code := code, data := data }
  | _, _ => none

/-- The process exit code of a fatal load error (R221). -/
def loadErrorExitCode : Nat := 1

/-- The exit code of a run that has ended: 0 on `Halted`, `FAULT_EXIT_CODE` on `Faulted` (R223, D28). -/
def State.exitCode (s : State) : Option Nat :=
  match s.status with
  | .running => none
  | .halted => some 0
  | .faulted _ _ _ => some s.cfg.faultExitCode

end Sys2Proof.Machine
end

