-- ==== Sys2Proof/Safety.lean ====
section
/-! DEFINITION. What counts as a good state and a safe run, in the terms the statements use. -/

namespace Sys2Proof.Machine

/-- The invariant of the model: both segments are in canonical form (spec/10_state.md R34) and the configuration meets
its constraints (spec/30_encoding.md R72, spec/70_reset_and_hazards.md R223). -/
def Inv (s : State) : Prop := s.code.wf = true ∧ s.data.wf = true ∧ s.cfg.wf = true

/-- The run has not faulted (spec/60_exceptions.md R201). -/
def NotFaulted (s : State) : Prop := ∀ k p o, s.status ≠ .faulted k p o

/-- `Reaches s t`: some number of steps leads from `s` to `t` (spec/70_reset_and_hazards.md R223). -/
inductive Reaches : State → State → Prop where
  | refl (s : State) : Reaches s s
  | tail {s t u : State} : Reaches s t → step t = .next u → Reaches s u

/-- A safe start: no state that its run reaches has faulted. -/
def Safe (s : State) : Prop := ∀ t, Reaches s t → NotFaulted t

end Sys2Proof.Machine
end

