-- ==== Sys2Proof/Certificates/Slice0/Obligations.lean ====
section
/-! DEFINITION. The statements for the provers, and the vocabulary they are written in. The vocabulary describes what a
rule of spec/ says by itself: a register file is a function of the index, flags are bit numbers, memory is read byte by
byte, so that a statement does not repeat the model's own definitions. -/

namespace Sys2Proof.Rules

open Sys2Proof.Machine

/-! ## Registers, flags and memory as a rule sees them -/

/-- The 16-bit register view, by index (R20). -/
abbrev Regs := RegIdx → Word

/-- The registers of `s` with pc advanced by `k` bytes, mod 2^16 (R26, R27). -/
def regsAt (s : State) (k : Nat) : Regs :=
  fun j => if j = RegIdx.rpp then s.x j + BitVec.ofNat 16 k else s.x j

/-- `xw[i]` (R22, R23). -/
def view (w : Width) (f : Regs) (i : RegIdx) : BitVec w.bits :=
  match w with
  | .w16 => f i
  | .w8 => if i.val < 4 then (f i).extractLsb' 0 8 else (f (i - 4)).extractLsb' 8 8

/-- `xw[i] <- v` (R24). -/
def put (w : Width) (i : RegIdx) (v : BitVec w.bits) (f : Regs) : Regs :=
  match w, v with
  | .w16, v => fun j => if j = i then v else f j
  | .w8, v => fun j =>
    if i.val < 4 then (if j = i then (f j).extractLsb' 8 8 ++ v else f j)
    else (if j.val + 4 = i.val then v ++ (f j).extractLsb' 0 8 else f j)

/-- One cell replaced. -/
def put16 (i : RegIdx) (v : Word) (f : Regs) : Regs := fun j => if j = i then v else f j

/-- The value of `Src2`: the immediate, or register-2 sized by the width (R77). -/
def srcVal (w : Width) (o : Src) (f : Regs) : BitVec w.bits :=
  match o with
  | .imm v => v.setWidth w.bits
  | .reg r => view w f r

/-- The value of `Addr2` or `Tgt`: 16 bits whatever the width (R78, R79). -/
def addrVal (o : Src) (f : Regs) : Word :=
  match o with
  | .imm v => v
  | .reg r => f r

/-- The immediate bytes a `Src` operand of `n` bytes consumes (R76). -/
def srcLen (n : Nat) : Src → Nat
  | .imm _ => n
  | .reg _ => 0

/-- The W bits at index `a`, high byte first (R54, R136). -/
def bytesBig (m : Nat → Byte) (a : Nat) (w : Width) : BitVec w.bits :=
  match w with
  | .w8 => m a
  | .w16 => m a ++ m (a + 1)

/-- The W bits at index `a` in `DATA_BYTE_ORDER` (R51). -/
def bytesAt (o : ByteOrder) (m : Nat → Byte) (a : Nat) (w : Width) : BitVec w.bits :=
  match w, o with
  | .w8, _ => m a
  | .w16, .big => m a ++ m (a + 1)
  | .w16, .little => m (a + 1) ++ m a

/-- Bytes after W bits are stored at index `a` in a byte order; every other byte as before (R52). -/
def stored (o : ByteOrder) (a : Nat) (w : Width) (v : BitVec w.bits) (m : Nat → Byte) : Nat → Byte :=
  match w, v, o with
  | .w8, v, _ => fun j => if j = a then v else m j
  | .w16, v, .big => fun j =>
    if j = a then v.extractLsb' 8 8 else if j = a + 1 then v.extractLsb' 0 8 else m j
  | .w16, v, .little => fun j =>
    if j = a then v.extractLsb' 0 8 else if j = a + 1 then v.extractLsb' 8 8 else m j

/-- What a rule says of the state after an instruction. `regs` gives all eight registers before the flag assignments,
`bits` the bits of the flags register that are then assigned. -/
structure Post where
  regs : Regs
  bits : List (Nat × Bool)
  code : Nat → Byte
  data : Nat → Byte
  output : List Byte
  status : RunStatus

/-- Nothing changes but pc, which advances by `k` bytes. -/
def only (s : State) (k : Nat) : Post where
  regs := regsAt s k
  bits := []
  code := s.code.read
  data := s.data.read
  output := s.output
  status := s.status

/-- The state `t` after an instruction that began in `s` is what the rule says: every register, every bit of the flags
register (an assigned bit as assigned, any other as the register write left it), every byte of both segments, the
output, the status and the configuration. -/
def Post.holds (p : Post) (s t : State) : Prop :=
  (∀ j, j ≠ RegIdx.flags → t.x j = p.regs j) ∧
  (∀ k, k < 16 →
    (t.x RegIdx.flags).getLsbD k = ((p.bits.lookup k).getD ((p.regs RegIdx.flags).getLsbD k))) ∧
  (∀ a, t.code.read a = p.code a) ∧ (∀ a, t.data.read a = p.data a) ∧
  t.output = p.output ∧ t.status = p.status ∧ t.cfg = s.cfg

/-- The instruction completes, and the state after it is what the rule says. -/
def Completes (i : Instr) (s : State) (p : Post) : Prop := ∃ t, exec i s = .next t ∧ p.holds s t

/-- The state a fault leaves: the state before the instruction, and the status `Faulted(kind, a0, CODE[a0])` (R201,
R202). -/
def faultState (k : FaultKind) (s : State) : State :=
  { s with status := .faulted k (s.x RegIdx.rpp) (s.code.read (s.x RegIdx.rpp).toNat) }

/-- The instruction raises a fault (R201, R202). -/
def Faults (k : FaultKind) (i : Instr) (s : State) : Prop := exec i s = .next (faultState k s)

/-! ## Encodings as the tables give them -/

/-- Specifier bit 7 (R70). -/
def fieldW (sp : Byte) : Width := if sp.toNat / 128 = 1 then .w16 else .w8
/-- Specifier bits 6-4 (R70). -/
def fieldR1 (sp : Byte) : RegIdx := Fin.ofNat 8 (sp.toNat / 16)
/-- Specifier bits 3-1 (R70). -/
def fieldR2 (sp : Byte) : RegIdx := Fin.ofNat 8 (sp.toNat / 2)
/-- Specifier bit 0 (R70). -/
def fieldI (sp : Byte) : Bool := decide (sp.toNat % 2 = 1)

/-- `Src2` and `Addr2`: an immediate, or register-2 (R77, R78). -/
def operand2 (sp : Byte) (v : Word) : Src := if fieldI sp then .imm v else .reg (fieldR2 sp)
/-- `Tgt` and `Opd1`: an immediate, or register-1 (R79, R80). -/
def operand1 (sp : Byte) (v : Word) : Src := if fieldI sp then .imm v else .reg (fieldR1 sp)

/-- No immediate is consumed, whatever `i` says (R74). -/
def lenNone (_ : Byte) : Nat := 0
/-- W/8 bytes when `i = 1` (R74). -/
def lenW (sp : Byte) : Nat := if fieldI sp then (fieldW sp).bytes else 0
/-- 2 bytes when `i = 1` (R74). -/
def len2 (sp : Byte) : Nat := if fieldI sp then 2 else 0

/-- The value of immediate bytes: one byte as it stands, two in `DATA_BYTE_ORDER` (R76). -/
def immValue : ByteOrder → List Byte → Word
  | _, [b] => BitVec.ofNat 16 b.toNat
  | .big, [b0, b1] => BitVec.ofNat 16 (256 * b0.toNat + b1.toNat)
  | .little, [b0, b1] => BitVec.ofNat 16 (256 * b1.toNat + b0.toNat)
  | _, _ => 0

/-- The opcode byte of `m`, any specifier byte and the immediate bytes that it calls for stand for the instruction `f`
makes of the fields, and nothing after them is consumed (R70, R71, R74); and where those immediate bytes would pass
index 0xFFFF, the step is `Fault(OutOfBounds)`, the one fault of the immediate fetch (R76, R53). -/
def Encoded (m : Mnemonic) (n : Byte → Nat) (f : Byte → Word → Instr) : Prop :=
  (∀ c : Config, c.wf = true → ∀ (sp : Byte) (imm rest : List Byte), imm.length = n sp →
    decode c (opcOf c.opc m :: sp :: (imm ++ rest)) = .ok (f sp (immValue c.dataByteOrder imm), rest)) ∧
  ∀ s : State, s.status = .running → s.cfg.wf = true → s.pc.toNat + 1 ≤ 0xFFFF →
    s.code.read s.pc.toNat = opcOf s.cfg.opc m → n (s.code.read (s.pc.toNat + 1)) ≠ 0 →
    (s.pc + 2).toNat + n (s.code.read (s.pc.toNat + 1)) - 1 > 0xFFFF →
    Machine.step s = .next (faultState .outOfBounds s)

/-- The fields an instruction reads, as (w, r1, r2, i) (R74). -/
def fieldsRead : Mnemonic → Bool × Bool × Bool × Bool
  | .add | .sub | .cmp | .and | .or | .xor | .set | .sd | .lp | .sp => (true, true, true, true)
  | .inc | .dec | .not | .shl | .shr | .push | .pull => (true, true, false, false)
  | .mul | .div | .ld => (true, true, true, false)
  | .jmp | .jiz | .jnz | .jin | .jnn | .jic | .jnc | .jio | .jno | .call => (false, true, false, true)
  | .wr => (true, true, false, true)
  | .retf | .cfl | .czf | .cnf | .ccf | .cof | .szf | .snf | .scf | .sof | .rd | .int | .halt | .nop | .stop =>
    (false, false, false, false)

/-- Two specifier bytes agree on every field the instruction reads. -/
def AgreeOnRead (m : Mnemonic) (sp sp' : Byte) : Prop :=
  ((fieldsRead m).1 = true → fieldW sp = fieldW sp') ∧
  ((fieldsRead m).2.1 = true → fieldR1 sp = fieldR1 sp') ∧
  ((fieldsRead m).2.2.1 = true → fieldR2 sp = fieldR2 sp') ∧
  ((fieldsRead m).2.2.2 = true → fieldI sp = fieldI sp')

/-- The immediate byte count by mnemonic, `w` and `i` (R74, R75). -/
def immCount (m : Mnemonic) (w : Width) (i : Bool) : Nat :=
  match m with
  | .add | .sub | .cmp | .and | .or | .xor | .set | .wr => if i then w.bits / 8 else 0
  | .sd | .lp | .sp | .jmp | .jiz | .jnz | .jin | .jnn | .jic | .jnc | .jio | .jno | .call => if i then 2 else 0
  | .inc | .dec | .not | .shl | .shr | .mul | .div | .ld | .push | .pull | .retf | .cfl | .czf | .cnf | .ccf | .cof
  | .szf | .snf | .scf | .sof | .rd | .int | .halt | .nop | .stop => 0

/-! ## Who writes what -/

/-- The instruction writes a 16-bit register through a register field of value `r` (R20, R28). -/
def writesReg (r : RegIdx) : Instr → Bool
  | .add w r1 _ | .sub w r1 _ | .and w r1 _ | .or w r1 _ | .xor w r1 _ | .set w r1 _ | .lp w r1 _ =>
    w == .w16 && r1 == r
  | .inc w r1 | .dec w r1 | .not w r1 | .shl w r1 | .shr w r1 | .pull w r1 => w == .w16 && r1 == r
  | .ld w r1 _ => w == .w16 && r1 == r
  | .mul w r1 r2 | .div w r1 r2 => w == .w16 && (r1 == r || r2 == r)
  | .cmp _ _ _ | .sd _ _ _ | .sp _ _ _ | .push _ _ | .jmp _ | .jiz _ | .jnz _ | .jin _ | .jnn _ | .jic _ | .jnc _
  | .jio _ | .jno _ | .call _ | .retf | .cfl | .czf | .cnf | .ccf | .cof | .szf | .snf | .scf | .sof | .wr _ _ | .rd
  | .int | .halt | .nop | .stop => false

/-- A `Src` operand names register `r`. -/
def srcNames (r : RegIdx) : Src → Bool
  | .reg r' => r' == r
  | .imm _ => false

/-- A register field that the instruction reads as a 16-bit register has the value `r` (R23, R78, R79). -/
def namesReg (r : RegIdx) : Instr → Bool
  | .add w r1 o | .sub w r1 o | .cmp w r1 o | .and w r1 o | .or w r1 o | .xor w r1 o | .set w r1 o =>
    w == .w16 && (r1 == r || srcNames r o)
  | .inc w r1 | .dec w r1 | .not w r1 | .shl w r1 | .shr w r1 | .push w r1 | .pull w r1 => w == .w16 && r1 == r
  | .mul w r1 r2 | .div w r1 r2 => w == .w16 && (r1 == r || r2 == r)
  | .ld w r1 r2 => (w == .w16 && r1 == r) || r2 == r
  | .sd w r1 o | .lp w r1 o | .sp w r1 o => (w == .w16 && r1 == r) || srcNames r o
  | .jmp o | .jiz o | .jnz o | .jin o | .jnn o | .jic o | .jnc o | .jio o | .jno o | .call o => srcNames r o
  | .wr w o => w == .w16 && srcNames r o
  | .retf | .cfl | .czf | .cnf | .ccf | .cof | .szf | .snf | .scf | .sof | .rd | .int | .halt | .nop | .stop => false

/-- The instructions that write bit `k` of the flags register by their own rule (R32). -/
def flagWriters : Nat → List Mnemonic
  | 0 => [.add, .inc, .sub, .dec, .cmp, .mul, .div, .not, .and, .or, .xor, .shl, .shr, .cfl, .czf, .szf]
  | 1 => [.sub, .dec, .cmp, .cfl, .cnf, .snf]
  | 2 => [.add, .inc, .mul, .div, .cfl, .ccf, .scf]
  | 3 => [.mul, .cfl, .cof, .sof]
  | _ => []

/-- The instructions of the control-flow family (R73). -/
def controlFlow : List Mnemonic := [.jmp, .jiz, .jnz, .jin, .jnn, .jic, .jnc, .jio, .jno, .call, .retf]

/-- The instruction the core fetches in a state (R26). -/
def Fetches (s : State) (i : Instr) : Prop := ∃ rest, decode s.cfg s.fetchWindow = .ok (i, rest)

/-- A state with another value in rint. -/
def withRint (s : State) (v : Word) : State := { s with regs := { s.regs with rint := v } }

/-- A state with bits of the flags register flipped. -/
def flipFlags (s : State) (m : Word) : State := { s with regs := { s.regs with flags := s.regs.flags ^^^ m } }

/-- A state with another output stream. -/
def withOutput (s : State) (o : List Byte) : State := { s with output := o }

end Sys2Proof.Rules

open Sys2Proof Sys2Proof.Machine Sys2Proof.Rules

/-! ## Encoding -/

/-- Decode and encode agree, for every well-formed instruction under every configuration (R70, R74, R76). Which values
the ignored fields take in the encoding is the spec's decision D26. -/
def Obligations.DecodeOfEncodeIsTheInstruction : Prop :=
  ∀ (c : Config) (i : Instr) (rest : List Byte), c.wf = true → i.wf = true →
    decode c (encode c i ++ rest) = .ok (i, rest)

/-- R72: `OPC` is injective, with three fixed values. That the machine's own table meets this is log entry 1. -/
def Obligations.OpcIsInjectiveWithThreeFixedBytes : Prop :=
  (∀ c : Config, c.wf = true →
    (∀ m m', opcOf c.opc m = opcOf c.opc m' → m = m') ∧
    opcOf c.opc .set = 0x05 ∧ opcOf c.opc .add = 0x10 ∧ opcOf c.opc .stop = 0x34 ∧
    (∀ b m, mnemonicOf c.opc b = some m ↔ opcOf c.opc m = b)) ∧
  Config.machine.wf = true

/-- Words written out from R70 and R72: the three instructions whose opcode byte the spec gives, under every
configuration. -/
def Obligations.WordsOfKnownOpcodesDecode : Prop :=
  ∀ c : Config,
    -- 00000101 1 000 000 1, 0x00 0x2A: SET r0, #0x002A (L1-S1)
    decode { c with dataByteOrder := .big } [0b00000101, 0b10000001, 0x00, 0x2A]
      = .ok (.set .w16 0 (.imm 0x002A), []) ∧
    -- 00000101 0 000 000 1, 0x7F: SET r0l, #0x7F (V2)
    decode c [0b00000101, 0b00000001, 0x7F] = .ok (.set .w8 0 (.imm 0x7F), []) ∧
    -- 00000101 1 001 101 0: SET r1, rpp (V5)
    decode c [0b00000101, 0b10011010] = .ok (.set .w16 1 (.reg 5), []) ∧
    -- 00010000 1 000 001 0: ADD r0, r1 (L1-S2)
    decode c [0b00010000, 0b10000010] = .ok (.add .w16 0 (.reg 1), []) ∧
    -- 00010000 0 100 000 0: ADD r0h, r0l (A5)
    decode c [0b00010000, 0b01000000] = .ok (.add .w8 4 (.reg 0), []) ∧
    -- 00110100 00000000: STOP (M2)
    decode c [0b00110100, 0b00000000] = .ok (.stop, [])

/-- R82: a field that R74 does not list has no effect, and an immediate bit that is ignored consumes no bytes (the spec's
decisions D11, D14, D19, D27: log entry 10). -/
def Obligations.IgnoredFieldsHaveNoEffect : Prop :=
  ∀ (c : Config) (m : Mnemonic), c.wf = true →
    (∀ (sp sp' : Byte) (rest : List Byte), AgreeOnRead m sp sp' →
      decode c (opcOf c.opc m :: sp :: rest) = decode c (opcOf c.opc m :: sp' :: rest)) ∧
    ((fieldsRead m).2.2.2 = false → ∀ (sp : Byte) (rest : List Byte),
      ∃ i, i.mnemonic = m ∧ decode c (opcOf c.opc m :: sp :: rest) = .ok (i, rest))

/-- R75: an instruction is 2 + k bytes, with k from the table of R74 (an inference the spec marks as its own). -/
def Obligations.InstructionLengthIsTwoPlusImmediate : Prop :=
  ∀ (c : Config) (bs rest : List Byte) (i : Instr), c.wf = true → decode c bs = .ok (i, rest) →
    i.wf = true ∧
    ∃ sp imm, bs = opcOf c.opc i.mnemonic :: sp :: (imm ++ rest) ∧
      imm.length = immCount i.mnemonic (fieldW sp) (fieldI sp) ∧
      (encode c i).length = 2 + imm.length

/-! ## The execution cycle -/

/-- A step runs the decoded instruction (R26, R76): where the canonical bytes of `i` stand in CODE, the word at pc and
the immediate at the advanced pc, which wraps (the spec's decision D15: log entry 12), a step is exec of `i` at that
state; exec itself advances pc. -/
def Obligations.StepRunsTheEncodedInstruction : Prop :=
  ∀ (s : State) (i : Instr), s.status = .running → s.cfg.wf = true → i.wf = true →
    s.pc.toNat + 1 ≤ 0xFFFF →
    s.code.read s.pc.toNat = opcOf s.cfg.opc i.mnemonic → s.code.read (s.pc.toNat + 1) = i.spec →
    (s.pc + 2).toNat + (i.immBytes s.cfg.dataByteOrder).length ≤ 65536 →
    (∀ k b, (i.immBytes s.cfg.dataByteOrder)[k]? = some b → s.code.read ((s.pc + 2).toNat + k) = b) →
    Machine.step s = exec i s

/-- R26, R76, R203: the fetch faults come first, in this order: a word that crosses the segment top; an unknown opcode,
under the policy `Fault`; an immediate that crosses the segment top (the spec's decisions D2, D15: log entries 9, 12). -/
def Obligations.FetchFaultsComeInOrder : Prop :=
  ∀ s : State, s.status = .running →
    (s.pc.toNat + 1 > 0xFFFF → Machine.step s = .next (faultState .outOfBounds s)) ∧
    (s.pc.toNat + 1 ≤ 0xFFFF →
      (mnemonicOf s.cfg.opc (s.code.read s.pc.toNat) = none → s.cfg.unknownOpcodePolicy = .fault →
        Machine.step s = .next (faultState .unknownOpcode s)) ∧
      (∀ m, mnemonicOf s.cfg.opc (s.code.read s.pc.toNat) = some m →
        let sp := s.code.read (s.pc.toNat + 1)
        let n := immCount m (fieldW sp) (fieldI sp)
        (n ≠ 0 → (s.pc + 2).toNat + n - 1 > 0xFFFF → Machine.step s = .next (faultState .outOfBounds s)) ∧
        (n = 0 ∨ (s.pc + 2).toNat + n - 1 ≤ 0xFFFF →
          ∃ i, i.mnemonic = m ∧ Fetches s i ∧ Machine.step s = exec i s)))

/-- R83, R206: what an opcode byte outside the image of `OPC` does under each policy (the spec's decision D2: log entry 9). -/
def Obligations.UnknownOpcodeFollowsThePolicy : Prop :=
  ∀ s : State, s.cfg.wf = true → s.status = .running → s.pc.toNat + 1 ≤ 0xFFFF →
    (∀ m, opcOf s.cfg.opc m ≠ s.code.read s.pc.toNat) →
    (s.cfg.unknownOpcodePolicy = .fault → Machine.step s = .next (faultState .unknownOpcode s)) ∧
    (s.cfg.unknownOpcodePolicy = .nop → ∃ t, Machine.step s = .next t ∧ (only s 2).holds s t)

/-- R35: while `Running` the core takes a step, and from `Halted` and `Faulted` it takes none (the spec's decision D17: log
entry 13). -/
def Obligations.StepsAreTakenExactlyWhileRunning : Prop :=
  ∀ s : State, (∃ t, Machine.step s = .next t) ↔ s.status = .running

/-- R35, R195: a running core becomes `Halted` by `STOP` and by nothing else. -/
def Obligations.OnlyStopHalts : Prop :=
  ∀ s t : State, Machine.step s = .next t → (t.status = .halted ↔ Fetches s .stop)

/-- R201, R202: a fault is precise: the state after it is the state before the instruction, plus the fault status
(the spec's decision D17: log entry 13). -/
def Obligations.FaultsArePrecise : Prop :=
  ∀ (s t : State) (k : FaultKind) (p : Word) (o : Byte), Machine.step s = .next t → t.status = .faulted k p o →
    p = s.x RegIdx.rpp ∧ o = s.code.read (s.x RegIdx.rpp).toNat ∧ t = faultState k s

/-- R200: each kind of fault has its cause (the spec's decisions D2, D10, D15, D16: log entries 9, 12, 13). -/
def Obligations.EachFaultHasItsCause : Prop :=
  ∀ (s t : State) (k : FaultKind) (p : Word) (o : Byte), Machine.step s = .next t → t.status = .faulted k p o →
    match k with
    | .divisionByZero => ∃ w r1 r2, Fetches s (.div w r1 r2) ∧ view w (regsAt s 2) r2 = 0
    | .stackUnderflow =>
      (∃ w r1, Fetches s (.pull w r1) ∧ s.rsp.toNat < w.bytes) ∨ (Fetches s .retf ∧ s.rsp.toNat < 2)
    | .unknownOpcode =>
      s.cfg.unknownOpcodePolicy = .fault ∧ mnemonicOf s.cfg.opc (s.code.read s.pc.toNat) = none
    | .outOfBounds =>
      decode s.cfg s.fetchWindow = .error .truncated ∨
      (∃ r1 r2, Fetches s (.ld .w16 r1 r2) ∧ regsAt s 2 r2 = 0xFFFF) ∨
      (∃ r1 a, (Fetches s (.sd .w16 r1 a) ∨ Fetches s (.lp .w16 r1 a) ∨ Fetches s (.sp .w16 r1 a)) ∧
        addrVal a (regsAt s 2) = 0xFFFF) ∨
      (∃ r1, Fetches s (.push .w16 r1) ∧ s.rsp = 0xFFFF) ∨
      (∃ a, Fetches s (.call a) ∧ s.rsp = 0xFFFF) ∨
      (∃ a, Fetches s (.wr .w16 a) ∧
        ∀ j, (addrVal a (regsAt s 2)).toNat ≤ j → j ≤ 0xFFFF → s.data.read j ≠ 0)

/-! ## Engine start and end -/

/-- R37: the state at engine start, with the images placed (R221). Under `RESET_REGS = Arbitrary` nothing is said of
r0-r3, rint and flags; `RESET_REGS` is the spec's decision D20 (log entry 2). -/
def Obligations.EngineStartState : Prop :=
  ∀ (c : Config) (ci : List Byte) (di : Option (List Byte)),
    (ci.length ≤ 65536 → (di.getD []).length ≤ 65536 →
      ∃ s, State.load c ci di = some s ∧ s.cfg = c ∧
        s.x RegIdx.rsp = 0 ∧ s.x RegIdx.rpp = 0 ∧
        (c.resetRegs = .zero → ∀ j, s.x j = 0) ∧
        (∀ a, s.code.read a = ci.getD a 0) ∧ (∀ a, s.data.read a = (di.getD []).getD a 0) ∧
        s.status = .running ∧ s.output = []) ∧
    (ci.length > 65536 ∨ (di.getD []).length > 65536 → State.load c ci di = none)

/-- R37 for `State.reset`: every register 0 (the spec's default `RESET_REGS = Zero`), both segments zero, `Running`,
nothing output; the defaults `Fault` and `Big` (R7). The spec's decisions D2, D3, D20: log entries 2, 9, 6. -/
def Obligations.ResetState : Prop :=
  (∀ j, State.reset.x j = 0) ∧ (∀ a, State.reset.code.read a = 0) ∧ (∀ a, State.reset.data.read a = 0) ∧
  State.reset.status = .running ∧ State.reset.output = [] ∧
  State.reset.cfg.unknownOpcodePolicy = .fault ∧ State.reset.cfg.dataByteOrder = .big

/-- R223: a halted run returns 0, a faulted one the nonzero `FAULT_EXIT_CODE`, a running one nothing (the spec's decision
D28: log entry 1). -/
def Obligations.ExitCodeTellsHaltFromFault : Prop :=
  ∀ s : State, s.cfg.wf = true →
    (s.status = .running → s.exitCode = none) ∧ (s.status = .halted → s.exitCode = some 0) ∧
    (∀ k p o, s.status = .faulted k p o → s.exitCode = some s.cfg.faultExitCode ∧ s.cfg.faultExitCode ≠ 0)

/-! ## Invariants and whole-machine rules -/

/-- The invariant (canonical segments, an admissible configuration) holds at reset. -/
def Obligations.InvariantHoldsAtReset : Prop := Inv State.reset

/-- Every step keeps the invariant, from every state that meets it. -/
def Obligations.EveryStepKeepsTheInvariant : Prop :=
  ∀ s t : State, Inv s → Machine.step s = .next t → Inv t ∧ t.cfg = s.cfg

/-- R32, R33: a bit of the flags register is written only by the instructions that the table lists for it and by an
instruction that writes 16-bit register 7 as a register operand; so IE and the reserved bits only by the latter (the bits' places: log
entry 5; unlisted flags unchanged: the spec's decision D6). -/
def Obligations.FlagsAreWrittenOnlyByTheirWriters : Prop :=
  ∀ (i : Instr) (s t : State) (k : Nat), exec i s = .next t → k < 16 → i.mnemonic ∉ flagWriters k →
    writesReg RegIdx.flags i = false →
    (t.x RegIdx.flags).getLsbD k = (s.x RegIdx.flags).getLsbD k

/-- R27: an instruction that does not write pc leaves the sequential value, mod 2^16, unless it faults (the spec's decision D15: log
entry 12). -/
def Obligations.SequentialInstructionsAdvancePc : Prop :=
  ∀ (i : Instr) (s t : State), s.status = .running → exec i s = .next t → NotFaulted t →
    i.mnemonic ∉ controlFlow → writesReg RegIdx.rpp i = false →
    t.x RegIdx.rpp = s.x RegIdx.rpp + BitVec.ofNat 16 (encode s.cfg i).length

/-- R36: the output stream is append-only, only WR appends to it, and nothing the core does depends on it. -/
def Obligations.OutputIsAppendOnlyAndNeverRead : Prop :=
  ∀ s t : State, Machine.step s = .next t →
    ∃ bs, t.output = s.output ++ bs ∧ (bs ≠ [] → ∃ w o, Fetches s (.wr w o)) ∧
      ∀ o, Machine.step (withOutput s o) = .next (withOutput t (o ++ bs))

/-- R50, R56: CODE is written only by SP, DATA only by SD, PUSH and CALL. -/
def Obligations.SegmentsAreWrittenOnlyByTheirStores : Prop :=
  ∀ (i : Instr) (s t : State), exec i s = .next t →
    (i.mnemonic ≠ .sp → ∀ a, t.code.read a = s.code.read a) ∧
    (i.mnemonic ∉ [Mnemonic.sd, .push, .call] → ∀ a, t.data.read a = s.data.read a)

/-- R30: no instruction reads or writes rint but through a register field of value 6 in 16-bit mode. -/
def Obligations.RintIsReachedOnlyByItsIndex : Prop :=
  ∀ (i : Instr) (s t : State) (v : Word), namesReg RegIdx.rint i = false → exec i s = .next t →
    t.x RegIdx.rint = s.x RegIdx.rint ∧ exec i (withRint s v) = .next (withRint t v)

/-- R33, R205: IE and the reserved bits of the flags register affect no instruction that does not name register 7 (the spec's
decision D5: log entry 5). -/
def Obligations.InterruptEnableAndReservedBitsAffectNothing : Prop :=
  ∀ (i : Instr) (s t : State) (m : Word), namesReg RegIdx.flags i = false → (∀ k, k < 4 → m.getLsbD k = false) →
    exec i s = .next t → exec i (flipFlags s m) = .next (flipFlags t m)

/-! ## Registers and memory -/

/-- R22, R24: a write of the 8-bit view changes only the 8 bits it names; a 16-bit write replaces all 16. -/
def Obligations.RegisterViewWritesChangeOnlyTheirBits : Prop :=
  ∀ (s : State) (w : Width) (i : RegIdx) (v : BitVec w.bits),
    (s.setXw w i v).xw w i = v ∧ (∀ j, (s.setXw w i v).x j = put w i v s.x j) ∧
    (∀ j, j ≠ i → (s.setXw w i v).xw w j = s.xw w j)

/-- R51: what `MemRead` returns, in both byte orders, and when it faults (the spec's decisions D3, D15: log entries 6, 12). -/
def Obligations.MemReadReturnsTheBytesInOrder : Prop :=
  ∀ (s : State) (g : Segment) (a : Word) (w : Width),
    (a.toNat + w.bits / 8 - 1 > 0xFFFF → s.memRead g a w = none) ∧
    (a.toNat + w.bits / 8 - 1 ≤ 0xFFFF →
      s.memRead g a w = some (bytesAt s.cfg.dataByteOrder (s.seg g).read a.toNat w))

/-- R52, R57: what `MemWrite` changes, in both byte orders, when it faults, and that a read gives the value back
(the spec's decisions D3, D15: log entries 6, 12). -/
def Obligations.MemWriteChangesExactlyItsBytes : Prop :=
  ∀ (s : State) (g : Segment) (a : Word) (w : Width) (v : BitVec w.bits),
    (a.toNat + w.bits / 8 - 1 > 0xFFFF → s.memWrite g a w v = none) ∧
    (a.toNat + w.bits / 8 - 1 ≤ 0xFFFF →
      ∃ t, s.memWrite g a w v = some t ∧ t.memRead g a w = some v ∧
        (∀ b, (t.seg g).read b = stored s.cfg.dataByteOrder a.toNat w v (s.seg g).read b) ∧
        (∀ g', g' ≠ g → t.seg g' = s.seg g') ∧
        t.regs = s.regs ∧ t.status = s.status ∧ t.output = s.output ∧ t.cfg = s.cfg)

/-- R62: a write of CODE by SP is seen by the fetch of the very next instruction. Here SP stores a STOP word where pc
then stands, and the next step halts (the spec's decision D21). -/
def Obligations.StoreToCodeIsSeenByTheNextFetch : Prop :=
  ∀ (s t : State) (r1 : RegIdx) (a : Src), s.cfg.wf = true → s.status = .running → NotFaulted t →
    exec (.sp .w16 r1 a) s = .next t → addrVal a (regsAt s 2) = t.x RegIdx.rpp →
    ((s.cfg.dataByteOrder = .big ∧ (regsAt s 2 r1).extractLsb' 8 8 = (0x34 : Byte)) ∨
      (s.cfg.dataByteOrder = .little ∧ (regsAt s 2 r1).extractLsb' 0 8 = (0x34 : Byte))) →
    ∃ u, Machine.step t = .next u ∧ u.status = .halted

/-! ## Arithmetic and logic -/

/-- R100. -/
def Obligations.AddGivesWrappedSumCarryAndZero : Prop :=
  (∀ t, opcOf t .add = 0x10) ∧
  Encoded .add lenW (fun sp v => .add (fieldW sp) (fieldR1 sp) (operand2 sp v)) ∧
  ∀ (s : State) (w : Width) (r1 : RegIdx) (o : Src),
    let a := (view w (regsAt s 2) r1).toNat
    let b := (srcVal w o (regsAt s 2)).toNat
    Completes (.add w r1 o) s
      { only s 0 with
        regs := put w r1 (BitVec.ofNat w.bits (a + b)) (regsAt s (2 + srcLen w.bytes o))
        bits := [(2, decide (a + b > 2 ^ w.bits - 1)), (0, decide ((a + b) % 2 ^ w.bits = 0))] }

/-- R101. That `r2` and `i` are ignored is the spec's decision D11 (log entry 10). -/
def Obligations.IncGivesWrappedIncrementCarryAndZero : Prop :=
  Encoded .inc lenNone (fun sp _ => .inc (fieldW sp) (fieldR1 sp)) ∧
  ∀ (s : State) (w : Width) (r1 : RegIdx),
    let a := (view w (regsAt s 2) r1).toNat
    Completes (.inc w r1) s
      { only s 0 with
        regs := put w r1 (BitVec.ofNat w.bits (a + 1)) (regsAt s 2)
        bits := [(2, decide (a = 2 ^ w.bits - 1)), (0, decide (a = 2 ^ w.bits - 1))] }

/-- R102. The signed reading of N is the spec's decision D8 (log entry 8). -/
def Obligations.SubGivesWrappedDifferenceAndSignedLess : Prop :=
  Encoded .sub lenW (fun sp v => .sub (fieldW sp) (fieldR1 sp) (operand2 sp v)) ∧
  ∀ (s : State) (w : Width) (r1 : RegIdx) (o : Src),
    let a := view w (regsAt s 2) r1
    let b := srcVal w o (regsAt s 2)
    Completes (.sub w r1 o) s
      { only s 0 with
        regs := put w r1 (BitVec.ofInt w.bits (a.toInt - b.toInt)) (regsAt s (2 + srcLen w.bytes o))
        bits := [(1, decide (a.toInt < b.toInt)), (0, decide (a = b))] }

/-- R103. The signed reading of N is the spec's decision D8 (log entry 8), ignoring `r2` and `i` D11 (log entry 10). -/
def Obligations.DecGivesWrappedDecrementAndSignedLess : Prop :=
  Encoded .dec lenNone (fun sp _ => .dec (fieldW sp) (fieldR1 sp)) ∧
  ∀ (s : State) (w : Width) (r1 : RegIdx),
    let a := view w (regsAt s 2) r1
    Completes (.dec w r1) s
      { only s 0 with
        regs := put w r1 (BitVec.ofInt w.bits (a.toInt - 1)) (regsAt s 2)
        bits := [(1, decide (a = 0 ∨ a.getLsbD (w.bits - 1) = true)), (0, decide (a = 1))] }

/-- R104. The signed reading of N is the spec's decision D8 (log entry 8). -/
def Obligations.CmpSetsFlagsAndWritesNoRegister : Prop :=
  Encoded .cmp lenW (fun sp v => .cmp (fieldW sp) (fieldR1 sp) (operand2 sp v)) ∧
  ∀ (s : State) (w : Width) (r1 : RegIdx) (o : Src),
    let a := view w (regsAt s 2) r1
    let b := srcVal w o (regsAt s 2)
    Completes (.cmp w r1 o) s
      { only s (2 + srcLen w.bytes o) with
        bits := [(1, decide (a.toInt < b.toInt)), (0, decide (a = b))] }

/-- R105, with the write order of R113: where r1 = r2 the high half remains (the spec's decisions D7, D9, D27:
log entries 7, 11, 10). -/
def Obligations.MulGivesBothHalvesOfTheProduct : Prop :=
  Encoded .mul lenNone (fun sp _ => .mul (fieldW sp) (fieldR1 sp) (fieldR2 sp)) ∧
  ∀ (s : State) (w : Width) (r1 r2 : RegIdx),
    let p := (view w (regsAt s 2) r1).toNat * (view w (regsAt s 2) r2).toNat
    Completes (.mul w r1 r2) s
      { only s 0 with
        regs := put w r2 (BitVec.ofNat w.bits (p / 2 ^ w.bits))
          (put w r1 (BitVec.ofNat w.bits (p % 2 ^ w.bits)) (regsAt s 2))
        bits := [(2, false), (0, decide (p = 0)), (3, decide (p / 2 ^ w.bits ≠ 0))] }

/-- R106, with the write order of R113: quotient and remainder, and the fault of a zero divisor (the spec's decisions
D7, D9, D10, D27: log entries 7, 11, 13, 10). -/
def Obligations.DivGivesQuotientAndRemainderOrFaults : Prop :=
  Encoded .div lenNone (fun sp _ => .div (fieldW sp) (fieldR1 sp) (fieldR2 sp)) ∧
  ∀ (s : State) (w : Width) (r1 r2 : RegIdx),
    let a := (view w (regsAt s 2) r1).toNat
    let b := (view w (regsAt s 2) r2).toNat
    (b = 0 → Faults .divisionByZero (.div w r1 r2) s) ∧
    (b ≠ 0 →
      (a / b) * b + a % b = a ∧ a % b < b ∧
      Completes (.div w r1 r2) s
        { only s 0 with
          regs := put w r2 (BitVec.ofNat w.bits (a % b))
            (put w r1 (BitVec.ofNat w.bits (a / b)) (regsAt s 2))
          bits := [(0, decide (a / b = 0)), (2, decide (a % b ≠ 0))] })

/-- R107: each bit of the result is the complement of the operand's. One operand is the spec's decision D11 (log entry 10). -/
def Obligations.NotComplementsEveryBit : Prop :=
  Encoded .not lenNone (fun sp _ => .not (fieldW sp) (fieldR1 sp)) ∧
  ∀ (s : State) (w : Width) (r1 : RegIdx),
    let a := view w (regsAt s 2) r1
    ∃ v : BitVec w.bits, (∀ k, k < w.bits → v.getLsbD k = !a.getLsbD k) ∧
      Completes (.not w r1) s
        { only s 0 with regs := put w r1 v (regsAt s 2), bits := [(0, decide (a.toNat = 2 ^ w.bits - 1))] }

/-- R108, R109, R110: each bit of the result is the and, or, exclusive or of the operands' bits. -/
def Obligations.AndOrXorActBitByBit : Prop :=
  Encoded .and lenW (fun sp v => .and (fieldW sp) (fieldR1 sp) (operand2 sp v)) ∧
  Encoded .or lenW (fun sp v => .or (fieldW sp) (fieldR1 sp) (operand2 sp v)) ∧
  Encoded .xor lenW (fun sp v => .xor (fieldW sp) (fieldR1 sp) (operand2 sp v)) ∧
  ∀ (s : State) (w : Width) (r1 : RegIdx) (o : Src),
    let a := view w (regsAt s 2) r1
    let b := srcVal w o (regsAt s 2)
    let post (v : BitVec w.bits) : Post :=
      { only s 0 with
        regs := put w r1 v (regsAt s (2 + srcLen w.bytes o)), bits := [(0, decide (v.toNat = 0))] }
    (∃ v : BitVec w.bits, (∀ k, k < w.bits → v.getLsbD k = (a.getLsbD k && b.getLsbD k)) ∧
      Completes (.and w r1 o) s (post v)) ∧
    (∃ v : BitVec w.bits, (∀ k, k < w.bits → v.getLsbD k = (a.getLsbD k || b.getLsbD k)) ∧
      Completes (.or w r1 o) s (post v)) ∧
    (∃ v : BitVec w.bits, (∀ k, k < w.bits → v.getLsbD k = (a.getLsbD k ^^ b.getLsbD k)) ∧
      Completes (.xor w r1 o) s (post v))

/-- R111, R112: a logical shift by one bit; the bit shifted out is lost, carry is not written. That `r2` and
`i` are ignored is the spec's decision D11 (log entry 10). -/
def Obligations.ShiftsMoveOneBitAndLeaveCarry : Prop :=
  Encoded .shl lenNone (fun sp _ => .shl (fieldW sp) (fieldR1 sp)) ∧
  Encoded .shr lenNone (fun sp _ => .shr (fieldW sp) (fieldR1 sp)) ∧
  ∀ (s : State) (w : Width) (r1 : RegIdx),
    let a := (view w (regsAt s 2) r1).toNat
    Completes (.shl w r1) s
      { only s 0 with
        regs := put w r1 (BitVec.ofNat w.bits (2 * a)) (regsAt s 2)
        bits := [(0, decide (2 * a % 2 ^ w.bits = 0))] } ∧
    Completes (.shr w r1) s
      { only s 0 with
        regs := put w r1 (BitVec.ofNat w.bits (a / 2)) (regsAt s 2)
        bits := [(0, decide (a / 2 = 0))] }

/-! ## Memory transfer -/

/-- R130. The 16-bit address and no immediate are the spec's decisions D12, D27 (log entries 15, 10). -/
def Obligations.LdLoadsFromData : Prop :=
  Encoded .ld lenNone (fun sp _ => .ld (fieldW sp) (fieldR1 sp) (fieldR2 sp)) ∧
  ∀ (s : State) (w : Width) (r1 r2 : RegIdx),
    let addr := (regsAt s 2 r2).toNat
    (addr + w.bits / 8 - 1 ≤ 0xFFFF →
      Completes (.ld w r1 r2) s
        { only s 0 with
          regs := put w r1 (bytesAt s.cfg.dataByteOrder s.data.read addr w) (regsAt s 2) }) ∧
    (addr + w.bits / 8 - 1 > 0xFFFF → Faults .outOfBounds (.ld w r1 r2) s)

/-- R131: the value is read before the address is resolved, and exactly its bytes of DATA change. The 16-bit
address is the spec's decision D12 (log entry 15). -/
def Obligations.SdStoresToData : Prop :=
  Encoded .sd len2 (fun sp v => .sd (fieldW sp) (fieldR1 sp) (operand2 sp v)) ∧
  ∀ (s : State) (w : Width) (r1 : RegIdx) (o : Src),
    let addr := (addrVal o (regsAt s 2)).toNat
    (addr + w.bits / 8 - 1 ≤ 0xFFFF →
      Completes (.sd w r1 o) s
        { only s (2 + srcLen 2 o) with
          data := stored s.cfg.dataByteOrder addr w (view w (regsAt s 2) r1) s.data.read }) ∧
    (addr + w.bits / 8 - 1 > 0xFFFF → Faults .outOfBounds (.sd w r1 o) s)

/-- R132. The 16-bit address is the spec's decision D12 (log entry 15). -/
def Obligations.LpLoadsFromCode : Prop :=
  Encoded .lp len2 (fun sp v => .lp (fieldW sp) (fieldR1 sp) (operand2 sp v)) ∧
  ∀ (s : State) (w : Width) (r1 : RegIdx) (o : Src),
    let addr := (addrVal o (regsAt s 2)).toNat
    (addr + w.bits / 8 - 1 ≤ 0xFFFF →
      Completes (.lp w r1 o) s
        { only s 0 with
          regs := put w r1 (bytesAt s.cfg.dataByteOrder s.code.read addr w) (regsAt s (2 + srcLen 2 o)) }) ∧
    (addr + w.bits / 8 - 1 > 0xFFFF → Faults .outOfBounds (.lp w r1 o) s)

/-- R133: exactly its bytes of CODE change. The 16-bit address is the spec's decision D12 (log entry 15). -/
def Obligations.SpStoresToCode : Prop :=
  Encoded .sp len2 (fun sp v => .sp (fieldW sp) (fieldR1 sp) (operand2 sp v)) ∧
  ∀ (s : State) (w : Width) (r1 : RegIdx) (o : Src),
    let addr := (addrVal o (regsAt s 2)).toNat
    (addr + w.bits / 8 - 1 ≤ 0xFFFF →
      Completes (.sp w r1 o) s
        { only s (2 + srcLen 2 o) with
          code := stored s.cfg.dataByteOrder addr w (view w (regsAt s 2) r1) s.code.read }) ∧
    (addr + w.bits / 8 - 1 > 0xFFFF → Faults .outOfBounds (.sp w r1 o) s)

/-- R134: no flag effect, but a 16-bit write of register 7 stores all 16 bits, and of register 5 jumps. -/
def Obligations.SetLoadsARegisterWithNoFlagEffect : Prop :=
  (∀ t, opcOf t .set = 0x05) ∧
  Encoded .set lenW (fun sp v => .set (fieldW sp) (fieldR1 sp) (operand2 sp v)) ∧
  ∀ (s : State) (w : Width) (r1 : RegIdx) (o : Src),
    Completes (.set w r1 o) s
      { only s 0 with regs := put w r1 (srcVal w o (regsAt s 2)) (regsAt s (2 + srcLen w.bytes o)) }

/-- R135: the value is pushed at the old rsp, high byte first, and rsp is incremented, mod 2^16 (the spec's decisions D14,
D15: log entries 16, 12). -/
def Obligations.PushStoresAtRspAndIncrementsIt : Prop :=
  Encoded .push lenNone (fun sp _ => .push (fieldW sp) (fieldR1 sp)) ∧
  ∀ (s : State) (w : Width) (r1 : RegIdx),
    let sp := s.x RegIdx.rsp
    (sp.toNat + w.bits / 8 - 1 ≤ 0xFFFF →
      Completes (.push w r1) s
        { only s 0 with
          regs := put16 RegIdx.rsp (BitVec.ofNat 16 (sp.toNat + w.bits / 8)) (regsAt s 2)
          data := stored .big sp.toNat w (view w (regsAt s 2) r1) s.data.read }) ∧
    (sp.toNat + w.bits / 8 - 1 > 0xFFFF → Faults .outOfBounds (.push w r1) s)

/-- R136: rsp is decremented, the value is read there, high byte first, and then written to register-1 (the spec's
decisions D14, D16: log entries 16, 13). -/
def Obligations.PullDecrementsRspAndLoads : Prop :=
  Encoded .pull lenNone (fun sp _ => .pull (fieldW sp) (fieldR1 sp)) ∧
  ∀ (s : State) (w : Width) (r1 : RegIdx),
    let sp := (s.x RegIdx.rsp).toNat
    (w.bits / 8 ≤ sp →
      Completes (.pull w r1) s
        { only s 0 with
          regs := put w r1 (bytesBig s.data.read (sp - w.bits / 8) w)
            (put16 RegIdx.rsp (BitVec.ofNat 16 (sp - w.bits / 8)) (regsAt s 2)) }) ∧
    (sp < w.bits / 8 → Faults .stackUnderflow (.pull w r1) s)

/-- The §8 property P5: PUSH and then PULL of the same general register, in either width, restores it and rsp. -/
def Obligations.PushThenPullRestoresRegisterAndRsp : Prop :=
  ∀ (s : State) (w : Width) (r1 : RegIdx), (w = .w16 → r1.val < 4) → (s.x RegIdx.rsp).toNat + w.bits / 8 - 1 ≤ 0xFFFF →
    (s.x RegIdx.rsp).toNat + w.bits / 8 ≤ 0xFFFF →
    ∃ t u, exec (.push w r1) s = .next t ∧ exec (.pull w r1) t = .next u ∧
      ∀ j, j ≠ RegIdx.rpp → u.x j = s.x j

/-! ## Control flow -/

/-- R150, R161. -/
def Obligations.JmpRedirectsPc : Prop :=
  Encoded .jmp len2 (fun sp v => .jmp (operand1 sp v)) ∧
  ∀ (s : State) (o : Src),
    Completes (.jmp o) s { only s 0 with regs := put16 RegIdx.rpp (addrVal o (regsAt s 2)) (regsAt s 2) }

/-- R151-R158, R161: each conditional jump tests one flag bit, and consumes its target taken or not. -/
def Obligations.ConditionalJumpsTestOneFlag : Prop :=
  ∀ e ∈ ([(.jiz, Instr.jiz, 0, true), (.jnz, Instr.jnz, 0, false), (.jin, Instr.jin, 1, true),
      (.jnn, Instr.jnn, 1, false), (.jic, Instr.jic, 2, true), (.jnc, Instr.jnc, 2, false),
      (.jio, Instr.jio, 3, true), (.jno, Instr.jno, 3, false)] : List (Mnemonic × (Src → Instr) × Nat × Bool)),
    Encoded e.1 len2 (fun sp v => e.2.1 (operand1 sp v)) ∧
    ∀ (s : State) (o : Src),
      ((s.x RegIdx.flags).getLsbD e.2.2.1 = e.2.2.2 →
        Completes (e.2.1 o) s
          { only s 0 with regs := put16 RegIdx.rpp (addrVal o (regsAt s 2)) (regsAt s 2) }) ∧
      ((s.x RegIdx.flags).getLsbD e.2.2.1 ≠ e.2.2.2 → Completes (e.2.1 o) s (only s (2 + srcLen 2 o)))

/-- R159: the return address, after the call and its operand, is pushed high byte first; pc takes the target
(the spec's decisions D3, D13, D14: log entries 6, 17, 16). -/
def Obligations.CallPushesTheReturnAddress : Prop :=
  Encoded .call len2 (fun sp v => .call (operand1 sp v)) ∧
  ∀ (s : State) (o : Src),
    let sp := s.x RegIdx.rsp
    let ret := s.x RegIdx.rpp + BitVec.ofNat 16 (2 + srcLen 2 o)
    (sp.toNat + 1 ≤ 0xFFFF →
      Completes (.call o) s
        { only s 0 with
          regs := put16 RegIdx.rpp (addrVal o (regsAt s 2))
            (put16 RegIdx.rsp (BitVec.ofNat 16 (sp.toNat + 2)) (regsAt s 2))
          data := stored .big sp.toNat .w16 ret s.data.read }) ∧
    (sp.toNat + 1 > 0xFFFF → Faults .outOfBounds (.call o) s)

/-- R160. The underflow fault is the spec's decision D16 (log entry 13). -/
def Obligations.RetfPopsPc : Prop :=
  Encoded .retf lenNone (fun _ _ => .retf) ∧
  ∀ s : State,
    let sp := (s.x RegIdx.rsp).toNat
    (2 ≤ sp →
      Completes .retf s
        { only s 0 with
          regs := put16 RegIdx.rpp (bytesBig s.data.read (sp - 2) .w16)
            (put16 RegIdx.rsp (BitVec.ofNat 16 (sp - 2)) (regsAt s 2)) }) ∧
    (sp < 2 → Faults .stackUnderflow .retf s)

/-- The §8 property P6: CALL and then RETF resumes at the instruction after the CALL, rsp unchanged. The register form
of the target is included; a CALL that leaves rsp at 0 (from 0xFFFE) is not, since RETF then underflows. -/
def Obligations.CallThenRetfResumesAfterTheCall : Prop :=
  ∀ (s : State) (o : Src), (s.x RegIdx.rsp).toNat + 2 ≤ 0xFFFF →
    ∃ t u, exec (.call o) s = .next t ∧ t.x RegIdx.rpp = addrVal o (regsAt s 2) ∧ exec .retf t = .next u ∧
      u.x RegIdx.rpp = s.x RegIdx.rpp + BitVec.ofNat 16 (2 + srcLen 2 o) ∧
      ∀ j, j ≠ RegIdx.rpp → u.x j = s.x j

/-! ## Flag management -/

/-- R170-R179: each instruction assigns the bits it names; IE, the reserved bits and everything else stay. -/
def Obligations.FlagInstructionsAssignTheirBits : Prop :=
  ∀ e ∈ ([(.cfl, .cfl, [(0, false), (1, false), (2, false), (3, false)]), (.czf, .czf, [(0, false)]),
      (.cnf, .cnf, [(1, false)]), (.ccf, .ccf, [(2, false)]), (.cof, .cof, [(3, false)]), (.szf, .szf, [(0, true)]),
      (.snf, .snf, [(1, true)]), (.scf, .scf, [(2, true)]), (.sof, .sof, [(3, true)])] :
      List (Mnemonic × Instr × List (Nat × Bool))),
    Encoded e.1 lenNone (fun _ _ => e.2.1) ∧ ∀ s : State, Completes e.2.1 s { only s 2 with bits := e.2.2 }

/-! ## I/O and miscellaneous -/

/-- R190: both modes. A string is the DATA bytes from the address up to the first NUL, which is not output, and then the
newline byte 0x0A (the spec's choice, G1: log entry 14); without a NUL it faults. -/
def Obligations.WrOutputsAStringOrAByte : Prop :=
  Encoded .wr lenW (fun sp v => .wr (fieldW sp) (operand1 sp v)) ∧
  ∀ (s : State) (o : Src),
    let a := (addrVal o (regsAt s 2)).toNat
    Completes (.wr .w8 o) s
      { only s (2 + srcLen 1 o) with output := s.output ++ [srcVal .w8 o (regsAt s 2)] } ∧
    (∀ k, a + k ≤ 0xFFFF → (∀ j, j < k → s.data.read (a + j) ≠ 0) → s.data.read (a + k) = 0 →
      Completes (.wr .w16 o) s
        { only s (2 + srcLen 2 o) with
          output := s.output ++ ((List.range k).map (fun j => s.data.read (a + j)) ++ [0x0A]) }) ∧
    ((∀ j, a ≤ j → j ≤ 0xFFFF → s.data.read j ≠ 0) → Faults .outOfBounds (.wr .w16 o) s)

/-- R194. -/
def Obligations.NopOnlyAdvancesPc : Prop :=
  Encoded .nop lenNone (fun _ _ => .nop) ∧ ∀ s : State, Completes .nop s (only s 2)

/-- R191-R193: RD, INT and HALT change nothing but pc, whatever their specifier byte; the core stays as it was. That
they consume nothing is the spec's decision D19 (log entry 10). -/
def Obligations.InertInstructionsOnlyAdvancePc : Prop :=
  ∀ e ∈ ([(.rd, .rd), (.int, .int), (.halt, .halt)] : List (Mnemonic × Instr)),
    Encoded e.1 lenNone (fun _ _ => e.2) ∧ ∀ s : State, Completes e.2 s (only s 2)

/-- R195: the status becomes `Halted` after the +2 advance; no further step is taken and the return value is 0. -/
def Obligations.StopHaltsAfterTheAdvance : Prop :=
  (∀ t, opcOf t .stop = 0x34) ∧ Encoded .stop lenNone (fun _ _ => .stop) ∧
  (∀ s : State, Completes .stop s { only s 2 with status := .halted }) ∧
  ∀ s t : State, exec .stop s = .next t → Machine.step t = .fault .coreHalted ∧ t.exitCode = some 0
end

