-- ==== Sys2Proof/Laws/Decode.lean ====
section
/-! SUPPORT. What the decoder's parts do: `OPC` and its inverse, the fields of the specifier byte, the immediate. -/

namespace Sys2Proof

/-! ## OPC -/

/-- Every mnemonic is one of the three fixed ones or is open (R72). -/
theorem mem_mnemonics (m : Mnemonic) : m ∈ (Mnemonic.set :: .add :: .stop :: openMnemonics) := by
  cases m <;> decide

/-- `OPC` is injective under an admissible table (R72). -/
theorem opcOf_injective {t : OpcTable} (h : t.wf = true) {m m' : Mnemonic} (e : opcOf t m = opcOf t m') : m = m' :=
  List.inj_on_of_nodup_map (of_decide_eq_true h) (mem_mnemonics m) (mem_mnemonics m') e

/-- What `OPC⁻¹` answers, `OPC` sends to the byte. -/
theorem opcOf_of_mnemonicOf {t : OpcTable} {b : Byte} {m : Mnemonic} (h : mnemonicOf t b = some m) : opcOf t m = b := by
  unfold mnemonicOf at h
  split at h
  · cases h; exact (‹b = 0x05›).symm
  · split at h
    · cases h; exact (‹b = 0x10›).symm
    · split at h
      · cases h; exact (‹b = 0x34›).symm
      · simpa using List.find?_some h

/-- `OPC⁻¹` gives a mnemonic back from its byte, under an admissible table (R72). -/
theorem mnemonicOf_opcOf {t : OpcTable} (h : t.wf = true) (m : Mnemonic) : mnemonicOf t (opcOf t m) = some m := by
  have e : mnemonicOf t (opcOf t m) ≠ none := by
    unfold mnemonicOf
    split
    · simp
    · split
      · simp
      · split
        · simp
        · have := mem_mnemonics m
          simp only [List.mem_cons] at this
          rcases this with rfl | rfl | rfl | hm
          · exact absurd rfl ‹_›
          · exact absurd rfl ‹_›
          · exact absurd rfl ‹_›
          · intro hn
            simpa using List.find?_eq_none.1 hn m hm
  obtain ⟨m', hm'⟩ := Option.ne_none_iff_exists'.1 e
  rw [hm', opcOf_injective h (opcOf_of_mnemonicOf hm')]

theorem Config.opc_wf {c : Config} (h : c.wf = true) : c.opc.wf = true := by
  simp only [Config.wf, Bool.and_eq_true] at h; exact h.1

theorem Config.faultExitCode_ne_zero {c : Config} (h : c.wf = true) : c.faultExitCode ≠ 0 := by
  simp only [Config.wf, Bool.and_eq_true, bne_iff_ne] at h; exact h.2

theorem witnessOpcodes_wf : witnessOpcodes.wf = true := by decide

theorem machineOpcodes_wf : machineOpcodes.wf = true := by
  unfold machineOpcodes
  split
  · assumption
  · exact witnessOpcodes_wf

/-- The configuration of the machine meets its constraints. -/
theorem Config.machine_wf : Config.machine.wf = true := by
  simp [Config.wf, Config.machine, machineOpcodes_wf]

/-! ## The specifier byte -/

@[simp] theorem specW_specifier (w : Width) (r1 r2 : RegIdx) (i : Bool) : specW (specifier w r1 r2 i) = w := by
  revert w r1 r2 i; intro w; cases w <;> decide
@[simp] theorem specR1_specifier (w : Width) (r1 r2 : RegIdx) (i : Bool) : specR1 (specifier w r1 r2 i) = r1 := by
  revert w r1 r2 i; intro w; cases w <;> decide
@[simp] theorem specR2_specifier (w : Width) (r1 r2 : RegIdx) (i : Bool) : specR2 (specifier w r1 r2 i) = r2 := by
  revert w r1 r2 i; intro w; cases w <;> decide
@[simp] theorem specI_specifier (w : Width) (r1 r2 : RegIdx) (i : Bool) : specI (specifier w r1 r2 i) = i := by
  revert w r1 r2 i; intro w; cases w <;> decide

/-! ## The decoder -/

/-- The decoder on the opcode byte of a mnemonic. -/
theorem decode_opcOf {c : Config} (h : c.wf = true) (m : Mnemonic) (sp : Byte) (rest : List Byte) :
    decode c (opcOf c.opc m :: sp :: rest) =
      match takeImm c.dataByteOrder (immLen m sp) rest with
      | none => .error .truncated
      | some (v, rest') => .ok (buildInstr m sp v, rest') := by
  cases ht : takeImm c.dataByteOrder (immLen m sp) rest <;> simp only [decode, mnemonicOf_opcOf (Config.opc_wf h), ht]

/-- Everything a successful decode says. -/
theorem decode_eq_ok {c : Config} {bs rest : List Byte} {i : Instr} (h : decode c bs = .ok (i, rest)) :
    ∃ op sp tl m v, bs = op :: sp :: tl ∧ mnemonicOf c.opc op = some m ∧
      takeImm c.dataByteOrder (immLen m sp) tl = some (v, rest) ∧ i = buildInstr m sp v := by
  unfold decode at h
  split at h
  · split at h
    · cases h
    · split at h
      · cases h
      · cases h
        exact ⟨_, _, _, _, _, rfl, ‹_›, ‹_›, rfl⟩
  · cases h

/-- Everything a successful `takeImm` says. -/
theorem takeImm_eq_some {o : ByteOrder} {n : Nat} {bs rest : List Byte} {v : Word}
    (h : takeImm o n bs = some (v, rest)) :
    (n = 0 ∧ v = 0 ∧ bs = rest) ∨ (n = 1 ∧ ∃ b, v = b.setWidth 16 ∧ bs = b :: rest) ∨
      (n = 2 ∧ ∃ b0 b1, v = joinBytes o b0 b1 ∧ bs = b0 :: b1 :: rest) := by
  unfold takeImm at h
  split at h <;> simp_all

/-- The mnemonic of the built instruction. -/
@[simp] theorem mnemonic_buildInstr (m : Mnemonic) (sp : Byte) (v : Word) : (buildInstr m sp v).mnemonic = m := by
  cases m <;> rfl

end Sys2Proof
end

