-- ==== Sys2Proof/Laws/State.lean ====
section
/-! SUPPORT. One lemma per field of State per update, and what each update does to the register view. -/

namespace Sys2Proof.Machine

/-! ## The register file -/

theorem RegFile.get_put (r : RegFile) (i j : RegIdx) (v : Word) :
    (r.put i v).get j = if j = i then v else r.get j := by
  fin_cases i <;> fin_cases j <;> rfl

@[simp] theorem State.x_setX (s : State) (i j : RegIdx) (v : Word) :
    (s.setX i v).x j = if j = i then v else s.x j := RegFile.get_put s.regs i j v

@[simp] theorem State.cfg_setX (s : State) (i : RegIdx) (v : Word) : (s.setX i v).cfg = s.cfg := rfl
@[simp] theorem State.code_setX (s : State) (i : RegIdx) (v : Word) : (s.setX i v).code = s.code := rfl
@[simp] theorem State.data_setX (s : State) (i : RegIdx) (v : Word) : (s.setX i v).data = s.data := rfl
@[simp] theorem State.status_setX (s : State) (i : RegIdx) (v : Word) : (s.setX i v).status = s.status := rfl
@[simp] theorem State.output_setX (s : State) (i : RegIdx) (v : Word) : (s.setX i v).output = s.output := rfl

theorem hiByte_joinHiLo (h l : Byte) : hiByte (joinHiLo h l) = h := by
  apply BitVec.eq_of_toNat_eq
  have hh := h.isLt
  have hl := l.isLt
  simp only [hiByte, joinHiLo, BitVec.extractLsb'_toNat, BitVec.toNat_append, Nat.shiftRight_eq_div_pow]
  rw [← Nat.shiftLeft_add_eq_or_of_lt hl, Nat.shiftLeft_eq]
  omega

theorem loByte_joinHiLo (h l : Byte) : loByte (joinHiLo h l) = l := by
  apply BitVec.eq_of_toNat_eq
  have hh := h.isLt
  have hl := l.isLt
  simp only [loByte, joinHiLo, BitVec.extractLsb'_toNat, BitVec.toNat_append, Nat.shiftRight_eq_div_pow]
  rw [← Nat.shiftLeft_add_eq_or_of_lt hl, Nat.shiftLeft_eq]
  omega

theorem joinHiLo_hiByte_loByte (v : Word) : joinHiLo (hiByte v) (loByte v) = v := by
  apply BitVec.eq_of_toNat_eq
  have hv := v.isLt
  have hl := (loByte v).isLt
  simp only [joinHiLo, BitVec.toNat_append]
  rw [← Nat.shiftLeft_add_eq_or_of_lt hl, Nat.shiftLeft_eq]
  simp only [hiByte, loByte, BitVec.extractLsb'_toNat, Nat.shiftRight_eq_div_pow]
  omega

/-! ## The 8-bit view and the width-selected view -/

/-- What a write of the 8-bit view does to each 16-bit cell (R24). -/
theorem State.x_setX8 (s : State) (i j : RegIdx) (v : Byte) :
    (s.setX8 i v).x j =
      if i.val < 4 then (if j = i then joinHiLo (hiByte (s.x i)) v else s.x j)
      else (if j = i - 4 then joinHiLo v (loByte (s.x (i - 4))) else s.x j) := by
  unfold State.setX8
  split <;> simp

@[simp] theorem State.cfg_setX8 (s : State) (i : RegIdx) (v : Byte) : (s.setX8 i v).cfg = s.cfg := by
  unfold State.setX8; split <;> rfl
@[simp] theorem State.code_setX8 (s : State) (i : RegIdx) (v : Byte) : (s.setX8 i v).code = s.code := by
  unfold State.setX8; split <;> rfl
@[simp] theorem State.data_setX8 (s : State) (i : RegIdx) (v : Byte) : (s.setX8 i v).data = s.data := by
  unfold State.setX8; split <;> rfl
@[simp] theorem State.status_setX8 (s : State) (i : RegIdx) (v : Byte) : (s.setX8 i v).status = s.status := by
  unfold State.setX8; split <;> rfl
@[simp] theorem State.output_setX8 (s : State) (i : RegIdx) (v : Byte) : (s.setX8 i v).output = s.output := by
  unfold State.setX8; split <;> rfl

@[simp] theorem State.cfg_setXw (s : State) (w : Width) (i : RegIdx) (v : BitVec w.bits) :
    (s.setXw w i v).cfg = s.cfg := by cases w <;> simp [State.setXw]
@[simp] theorem State.code_setXw (s : State) (w : Width) (i : RegIdx) (v : BitVec w.bits) :
    (s.setXw w i v).code = s.code := by cases w <;> simp [State.setXw]
@[simp] theorem State.data_setXw (s : State) (w : Width) (i : RegIdx) (v : BitVec w.bits) :
    (s.setXw w i v).data = s.data := by cases w <;> simp [State.setXw]
@[simp] theorem State.status_setXw (s : State) (w : Width) (i : RegIdx) (v : BitVec w.bits) :
    (s.setXw w i v).status = s.status := by cases w <;> simp [State.setXw]
@[simp] theorem State.output_setXw (s : State) (w : Width) (i : RegIdx) (v : BitVec w.bits) :
    (s.setXw w i v).output = s.output := by cases w <;> simp [State.setXw]

/-! ## pc and rsp -/

theorem State.x_setPc (s : State) (t : Word) (j : RegIdx) :
    (s.setPc t).x j = if j = RegIdx.rpp then t else s.x j := State.x_setX ..

@[simp] theorem State.pc_setPc (s : State) (t : Word) : (s.setPc t).pc = t := by simp [State.pc, State.x_setPc]
@[simp] theorem State.cfg_setPc (s : State) (t : Word) : (s.setPc t).cfg = s.cfg := rfl
@[simp] theorem State.code_setPc (s : State) (t : Word) : (s.setPc t).code = s.code := rfl
@[simp] theorem State.data_setPc (s : State) (t : Word) : (s.setPc t).data = s.data := rfl
@[simp] theorem State.status_setPc (s : State) (t : Word) : (s.setPc t).status = s.status := rfl
@[simp] theorem State.output_setPc (s : State) (t : Word) : (s.setPc t).output = s.output := rfl

/-- The registers after pc advances (R26, R76). -/
theorem State.x_advance (s : State) (n : Nat) (j : RegIdx) :
    (s.advance n).x j = if j = RegIdx.rpp then s.x RegIdx.rpp + BitVec.ofNat 16 n else s.x j := State.x_setX ..

/-- Two advances are one. -/
theorem State.advance_advance (s : State) (m n : Nat) : (s.advance m).advance n = s.advance (m + n) := by
  have h : ∀ (r : RegFile) (v w : Word), (r.put RegIdx.rpp v).put RegIdx.rpp w = r.put RegIdx.rpp w := by
    intro r v w; rfl
  simp [State.advance, State.setPc, State.setX, State.pc, State.x, h, RegFile.get_put, BitVec.add_assoc,
    BitVec.ofNat_add]

@[simp] theorem State.pc_advance (s : State) (n : Nat) : (s.advance n).pc = s.pc + BitVec.ofNat 16 n :=
  State.pc_setPc ..
@[simp] theorem State.cfg_advance (s : State) (n : Nat) : (s.advance n).cfg = s.cfg := rfl
@[simp] theorem State.code_advance (s : State) (n : Nat) : (s.advance n).code = s.code := rfl
@[simp] theorem State.data_advance (s : State) (n : Nat) : (s.advance n).data = s.data := rfl
@[simp] theorem State.status_advance (s : State) (n : Nat) : (s.advance n).status = s.status := rfl
@[simp] theorem State.output_advance (s : State) (n : Nat) : (s.advance n).output = s.output := rfl

theorem State.x_setRsp (s : State) (v : Word) (j : RegIdx) :
    (s.setRsp v).x j = if j = RegIdx.rsp then v else s.x j := State.x_setX ..

@[simp] theorem State.rsp_setRsp (s : State) (v : Word) : (s.setRsp v).rsp = v := by simp [State.rsp, State.x_setRsp]
@[simp] theorem State.rsp_advance (s : State) (n : Nat) : (s.advance n).rsp = s.rsp := by
  simp [State.rsp, State.x_advance, show RegIdx.rsp ≠ RegIdx.rpp by decide]
@[simp] theorem State.cfg_setRsp (s : State) (v : Word) : (s.setRsp v).cfg = s.cfg := rfl
@[simp] theorem State.code_setRsp (s : State) (v : Word) : (s.setRsp v).code = s.code := rfl
@[simp] theorem State.data_setRsp (s : State) (v : Word) : (s.setRsp v).data = s.data := rfl
@[simp] theorem State.status_setRsp (s : State) (v : Word) : (s.setRsp v).status = s.status := rfl
@[simp] theorem State.output_setRsp (s : State) (v : Word) : (s.setRsp v).output = s.output := rfl

/-! ## Flags -/

/-- One bit of a word is assigned and the others stay. -/
theorem getLsbD_putBit (v : Word) (k n : Nat) (b : Bool) (hn : n < 16) :
    (putBit v k b).getLsbD n = if n = k then b else v.getLsbD n := by
  unfold putBit
  cases b <;> by_cases h : n = k <;> simp [BitVec.getLsbD_twoPow, h, hn]
  all_goals omega

/-- The same, in the form simp prefers. -/
theorem getElem_putBit (v : Word) (k n : Nat) (b : Bool) (hn : n < 16) :
    (putBit v k b)[n] = if n = k then b else v[n] := by
  rw [← BitVec.getLsbD_eq_getElem, getLsbD_putBit v k n b hn, BitVec.getLsbD_eq_getElem]

theorem State.x_setFlag (s : State) (f : Flag) (b : Bool) (j : RegIdx) :
    (s.setFlag f b).x j = if j = RegIdx.flags then putBit (s.x RegIdx.flags) f.bit b else s.x j := State.x_setX ..

@[simp] theorem State.cfg_setFlag (s : State) (f : Flag) (b : Bool) : (s.setFlag f b).cfg = s.cfg := rfl
@[simp] theorem State.code_setFlag (s : State) (f : Flag) (b : Bool) : (s.setFlag f b).code = s.code := rfl
@[simp] theorem State.data_setFlag (s : State) (f : Flag) (b : Bool) : (s.setFlag f b).data = s.data := rfl
@[simp] theorem State.status_setFlag (s : State) (f : Flag) (b : Bool) : (s.setFlag f b).status = s.status := rfl
@[simp] theorem State.output_setFlag (s : State) (f : Flag) (b : Bool) : (s.setFlag f b).output = s.output := rfl

/-! ## Segments, status, output -/

@[simp] theorem State.regs_setSeg (s : State) (g : Segment) (m : Memory) : (s.setSeg g m).regs = s.regs := by
  cases g <;> rfl
@[simp] theorem State.x_setSeg (s : State) (g : Segment) (m : Memory) (j : RegIdx) : (s.setSeg g m).x j = s.x j := by
  cases g <;> rfl
@[simp] theorem State.cfg_setSeg (s : State) (g : Segment) (m : Memory) : (s.setSeg g m).cfg = s.cfg := by
  cases g <;> rfl
@[simp] theorem State.status_setSeg (s : State) (g : Segment) (m : Memory) : (s.setSeg g m).status = s.status := by
  cases g <;> rfl
@[simp] theorem State.output_setSeg (s : State) (g : Segment) (m : Memory) : (s.setSeg g m).output = s.output := by
  cases g <;> rfl
@[simp] theorem State.seg_setSeg (s : State) (g : Segment) (m : Memory) : (s.setSeg g m).seg g = m := by
  cases g <;> rfl
theorem State.seg_setSeg_ne (s : State) (g g' : Segment) (m : Memory) (h : g' ≠ g) :
    (s.setSeg g m).seg g' = s.seg g' := by
  cases g <;> cases g' <;> first | rfl | exact absurd rfl h

@[simp] theorem State.regs_takeFault (s : State) (k : FaultKind) : (s.takeFault k).regs = s.regs := rfl
@[simp] theorem State.x_takeFault (s : State) (k : FaultKind) (j : RegIdx) : (s.takeFault k).x j = s.x j := rfl
@[simp] theorem State.cfg_takeFault (s : State) (k : FaultKind) : (s.takeFault k).cfg = s.cfg := rfl
@[simp] theorem State.code_takeFault (s : State) (k : FaultKind) : (s.takeFault k).code = s.code := rfl
@[simp] theorem State.data_takeFault (s : State) (k : FaultKind) : (s.takeFault k).data = s.data := rfl
@[simp] theorem State.status_takeFault (s : State) (k : FaultKind) :
    (s.takeFault k).status = .faulted k s.pc (s.code.read s.pc.toNat) := rfl
@[simp] theorem State.output_takeFault (s : State) (k : FaultKind) : (s.takeFault k).output = s.output := rfl

@[simp] theorem State.x_halt (s : State) (j : RegIdx) : s.halt.x j = s.x j := rfl
@[simp] theorem State.cfg_halt (s : State) : s.halt.cfg = s.cfg := rfl
@[simp] theorem State.code_halt (s : State) : s.halt.code = s.code := rfl
@[simp] theorem State.data_halt (s : State) : s.halt.data = s.data := rfl
@[simp] theorem State.status_halt (s : State) : s.halt.status = .halted := rfl
@[simp] theorem State.output_halt (s : State) : s.halt.output = s.output := rfl

@[simp] theorem State.x_out (s : State) (bs : List Byte) (j : RegIdx) : (s.out bs).x j = s.x j := rfl
@[simp] theorem State.cfg_out (s : State) (bs : List Byte) : (s.out bs).cfg = s.cfg := rfl
@[simp] theorem State.code_out (s : State) (bs : List Byte) : (s.out bs).code = s.code := rfl
@[simp] theorem State.data_out (s : State) (bs : List Byte) : (s.out bs).data = s.data := rfl
@[simp] theorem State.status_out (s : State) (bs : List Byte) : (s.out bs).status = s.status := rfl
@[simp] theorem State.output_out (s : State) (bs : List Byte) : (s.out bs).output = s.output ++ bs := rfl

end Sys2Proof.Machine
end

