-- ==== Sys2Proof/Laws/Memory.lean ====
section
/-! SUPPORT. The laws of the segments: a read after a write, and that every memory operation keeps the canonical form. -/

namespace Sys2Proof.Machine

/-! ## One byte -/

/-- The canonical form, from index `lo` upward. -/
def Memory.From (lo : Nat) : Memory → Prop
  | [] => True
  | (a, v) :: m => lo ≤ a ∧ a < 65536 ∧ v ≠ unlistedByte ∧ Memory.From (a + 1) m

theorem Memory.From.mono {lo lo' : Nat} {m : Memory} (h : Memory.From lo m) (hl : lo' ≤ lo) : Memory.From lo' m := by
  cases m with
  | nil => trivial
  | cons p m => exact ⟨hl.trans h.1, h.2⟩

/-- `Memory.wf` says the same as `Memory.From 0`. -/
theorem Memory.wf_iff (m : Memory) : m.wf = true ↔ Memory.From 0 m := by
  have key : ∀ (m : Memory) (a : Nat) (v : Byte),
      Memory.wf ((a, v) :: m) = true ↔ a < 65536 ∧ v ≠ unlistedByte ∧ Memory.From (a + 1) m := by
    intro m
    induction m with
    | nil => intro a v; simp [Memory.wf, Memory.From]
    | cons p m ih =>
      obtain ⟨b, w⟩ := p
      intro a v
      have h := ih b w
      simp only [Memory.wf, Memory.From, Bool.and_eq_true, decide_eq_true_eq, bne_iff_ne, h]
      constructor
      · rintro ⟨⟨hab, hv⟩, hb, hw, hm⟩; exact ⟨by omega, hv, by omega, hb, hw, hm⟩
      · rintro ⟨_, hv, hab, hb, hw, hm⟩; exact ⟨⟨by omega, hv⟩, hb, hw, hm⟩
  cases m with
  | nil => simp [Memory.wf, Memory.From]
  | cons p m => obtain ⟨a, v⟩ := p; rw [key]; simp [Memory.From]

theorem Memory.From.insert {lo a : Nat} {m : Memory} {v : Byte} (h : Memory.From lo m) (hl : lo ≤ a) (ha : a < 65536)
    (hv : v ≠ unlistedByte) : Memory.From lo (m.insert a v) := by
  induction m generalizing lo with
  | nil => exact ⟨hl, ha, hv, trivial⟩
  | cons p m ih =>
    obtain ⟨b, w⟩ := p
    obtain ⟨hb, hb', hw, hm⟩ := h
    simp only [Memory.insert]
    split
    · exact ⟨hl, ha, hv, by omega, hb', hw, hm⟩
    · split
      · exact ⟨hl, ha, hv, by subst a; exact hm⟩
      · exact ⟨hb, hb', hw, ih hm (by omega)⟩

theorem Memory.From.erase {lo : Nat} {m : Memory} (h : Memory.From lo m) (a : Nat) : Memory.From lo (m.erase a) := by
  induction m generalizing lo with
  | nil => trivial
  | cons p m ih =>
    obtain ⟨b, w⟩ := p
    obtain ⟨hb, hb', hw, hm⟩ := h
    have := ih hm
    simp only [Memory.erase, List.filter_cons] at this ⊢
    split
    · exact ⟨hb, hb', hw, this⟩
    · exact this.mono (by omega)

/-- A write keeps the canonical form. -/
theorem Memory.wf_write {m : Memory} {a : Nat} (h : m.wf = true) (ha : a < 65536) (v : Byte) :
    (m.write a v).wf = true := by
  rw [Memory.wf_iff] at h ⊢
  unfold Memory.write
  split
  · exact h.erase a
  · exact h.insert (Nat.zero_le a) ha ‹_›

theorem Memory.read_insert (m : Memory) (a j : Nat) (v : Byte) :
    (m.insert a v).read j = if j = a then v else m.read j := by
  induction m with
  | nil => rfl
  | cons p m ih =>
    obtain ⟨b, w⟩ := p
    simp only [Memory.insert]
    split
    · simp [Memory.read]
    · split
      · subst a; simp only [Memory.read]; split <;> rfl
      · by_cases hj : j = b
        · subst j; simp [Memory.read, Ne.symm ‹¬ a = b›]
        · simp [Memory.read, hj, ih]

theorem Memory.read_erase (m : Memory) (a j : Nat) :
    (m.erase a).read j = if j = a then unlistedByte else m.read j := by
  induction m with
  | nil => simp [Memory.erase, Memory.read]
  | cons p m ih =>
    obtain ⟨b, w⟩ := p
    simp only [Memory.erase, List.filter_cons] at ih ⊢
    by_cases hb : b = a
    · subst hb
      simp only [bne_self_eq_false, Bool.false_eq_true, if_false, ih, Memory.read]
      split <;> rfl
    · have : (b != a) = true := by simpa using hb
      simp only [this, if_true, Memory.read, ih]
      by_cases hj : j = b
      · subst j; simp [hb]
      · simp [hj]

/-- A read after a write: the value at the written index, and every other index as before. -/
@[simp] theorem Memory.read_write (m : Memory) (a j : Nat) (v : Byte) :
    (m.write a v).read j = if j = a then v else m.read j := by
  unfold Memory.write
  split
  · subst v; exact Memory.read_erase m a j
  · exact Memory.read_insert m a j v

/-! ## W/8 bytes -/

theorem inBounds_iff (a : Word) (w : Width) : inBounds a w = true ↔ a.toNat + w.bytes ≤ 65536 := by
  have := a.isLt
  cases w <;> simp [inBounds, Width.bytes] <;> omega

/-- An in-range store keeps the canonical form. -/
theorem Memory.wf_writeW {m : Memory} {a : Word} {w : Width} (h : m.wf = true) (hb : inBounds a w = true)
    (o : ByteOrder) (v : BitVec w.bits) : (m.writeW o a w v).wf = true := by
  have := (inBounds_iff a w).1 hb
  cases w with
  | w8 => exact Memory.wf_write h a.isLt v
  | w16 => exact Memory.wf_write (Memory.wf_write h a.isLt _) (by simp only [Width.bytes] at this; omega) _

theorem Memory.wf_imageFrom (image : List Byte) (a : Nat) (h : a + image.length ≤ 65536) :
    Memory.From a (imageFrom a image) := by
  induction image generalizing a with
  | nil => trivial
  | cons b bs ih =>
    have hl : a + 1 + bs.length ≤ 65536 := by simp at h; omega
    simp only [imageFrom]
    split
    · exact (ih (a + 1) hl).mono (Nat.le_succ a)
    · exact ⟨le_rfl, by omega, ‹_›, ih (a + 1) hl⟩

/-- Placing bytes at pc keeps the canonical form. -/
theorem Memory.wf_place {m : Memory} (h : m.wf = true) (a : Word) (bs : List Byte) : (m.place a bs).wf = true := by
  induction bs generalizing m a with
  | nil => exact h
  | cons b bs ih => exact ih (Memory.wf_write h a.isLt b) (a + 1)

/-! ## The operations on State -/

/-- Everything a completed `MemWrite` does. -/
theorem State.memWrite_eq_some {s t : State} {g : Segment} {a : Word} {w : Width} {v : BitVec w.bits}
    (h : s.memWrite g a w v = some t) :
    inBounds a w = true ∧ t = s.setSeg g ((s.seg g).writeW s.cfg.dataByteOrder a w v) := by
  unfold State.memWrite at h
  split at h
  · exact ⟨‹_›, by simpa using h.symm⟩
  · cases h

/-- Everything a completed `MemRead` gives. -/
theorem State.memRead_eq_some {s : State} {g : Segment} {a : Word} {w : Width} {v : BitVec w.bits}
    (h : s.memRead g a w = some v) :
    inBounds a w = true ∧ v = (s.seg g).readW s.cfg.dataByteOrder a w := by
  unfold State.memRead at h
  split at h
  · exact ⟨‹_›, by simpa using h.symm⟩
  · cases h

/-- Everything a completed push does. -/
theorem State.push_eq_some {s t : State} {w : Width} {v : BitVec w.bits} (h : s.push w v = some t) :
    inBounds s.rsp w = true ∧
      t = ({ s with data := s.data.writeW .big s.rsp w v } : State).setRsp (s.rsp + BitVec.ofNat 16 w.bytes) := by
  unfold State.push at h
  split at h
  · exact ⟨‹_›, by simpa using h.symm⟩
  · cases h

/-- An answer of `orRaise` is the state given, or the fault. -/
theorem orRaise_eq_next {k : FaultKind} {s t : State} {o : Option State} (h : orRaise k s o = .next t) :
    o = some t ∨ (o = none ∧ t = s.takeFault k) := by
  cases o with
  | none => exact .inr ⟨rfl, by simpa [orRaise, raise] using h.symm⟩
  | some u => exact .inl (by simpa [orRaise] using h)

end Sys2Proof.Machine
end

