-- ==== Sys2Proof/Laws/PerInstr.lean ====
section
/-! SUPPORT. A statement about every instruction as syntax, one lemma per constructor of Instr. -/

/-- The immediate bytes that the encoder writes are as many as the decoder takes for the mnemonic and the specifier
byte (spec/30_encoding.md R74, R75). -/
def Sys2Proof.Laws.EncodingLength.Statement (i : Sys2Proof.Instr) : Prop :=
  ∀ o : Sys2Proof.ByteOrder, (i.immBytes o).length = Sys2Proof.immLen i.mnemonic i.spec

namespace Sys2Proof.Laws

/-- Operand 2 of the two-operand forms. -/
theorem length_encodeSrc_two (o : ByteOrder) (w : Width) (r1 : RegIdx) (src : Src) :
    (encodeSrc o w src).length = if specI (specTwo w r1 src) then (specW (specTwo w r1 src)).bytes else 0 := by
  cases src <;> cases w <;> simp [encodeSrc, specTwo, Width.bytes]

/-- An address operand: 2 bytes whatever the width bit says. -/
theorem length_encodeSrc_addr (o : ByteOrder) (w : Width) (r1 : RegIdx) (a : Src) :
    (encodeSrc o .w16 a).length = if specI (specTwo w r1 a) then 2 else 0 := by
  cases a <;> simp [encodeSrc, specTwo]

/-- A target operand: 2 bytes. -/
theorem length_encodeSrc_target (o : ByteOrder) (t : Src) :
    (encodeSrc o .w16 t).length = if specI (specOne .w16 t) then 2 else 0 := by
  cases t <;> simp [encodeSrc, specOne]

/-- The operand of WR. -/
theorem length_encodeSrc_wr (o : ByteOrder) (w : Width) (t : Src) :
    (encodeSrc o w t).length = if specI (specOne w t) then (specW (specOne w t)).bytes else 0 := by
  cases t <;> cases w <;> simp [encodeSrc, specOne, Width.bytes]

end Sys2Proof.Laws

namespace Sys2Proof.Laws.EncodingLength

theorem add (w : Width) (r1 : RegIdx) (src : Src) : Statement (.add w r1 src) :=
  fun o => length_encodeSrc_two o w r1 src
theorem inc (w : Width) (r1 : RegIdx) : Statement (.inc w r1) := fun _ => rfl
theorem sub (w : Width) (r1 : RegIdx) (src : Src) : Statement (.sub w r1 src) :=
  fun o => length_encodeSrc_two o w r1 src
theorem dec (w : Width) (r1 : RegIdx) : Statement (.dec w r1) := fun _ => rfl
theorem cmp (w : Width) (r1 : RegIdx) (src : Src) : Statement (.cmp w r1 src) :=
  fun o => length_encodeSrc_two o w r1 src
theorem mul (w : Width) (r1 r2 : RegIdx) : Statement (.mul w r1 r2) := fun _ => rfl
theorem div (w : Width) (r1 r2 : RegIdx) : Statement (.div w r1 r2) := fun _ => rfl
theorem not (w : Width) (r1 : RegIdx) : Statement (.not w r1) := fun _ => rfl
theorem and (w : Width) (r1 : RegIdx) (src : Src) : Statement (.and w r1 src) :=
  fun o => length_encodeSrc_two o w r1 src
theorem or (w : Width) (r1 : RegIdx) (src : Src) : Statement (.or w r1 src) := fun o => length_encodeSrc_two o w r1 src
theorem xor (w : Width) (r1 : RegIdx) (src : Src) : Statement (.xor w r1 src) :=
  fun o => length_encodeSrc_two o w r1 src
theorem shl (w : Width) (r1 : RegIdx) : Statement (.shl w r1) := fun _ => rfl
theorem shr (w : Width) (r1 : RegIdx) : Statement (.shr w r1) := fun _ => rfl
theorem ld (w : Width) (r1 r2 : RegIdx) : Statement (.ld w r1 r2) := fun _ => rfl
theorem sd (w : Width) (r1 : RegIdx) (addr : Src) : Statement (.sd w r1 addr) :=
  fun o => length_encodeSrc_addr o w r1 addr
theorem lp (w : Width) (r1 : RegIdx) (addr : Src) : Statement (.lp w r1 addr) :=
  fun o => length_encodeSrc_addr o w r1 addr
theorem sp (w : Width) (r1 : RegIdx) (addr : Src) : Statement (.sp w r1 addr) :=
  fun o => length_encodeSrc_addr o w r1 addr
theorem set (w : Width) (r1 : RegIdx) (src : Src) : Statement (.set w r1 src) :=
  fun o => length_encodeSrc_two o w r1 src
theorem push (w : Width) (r1 : RegIdx) : Statement (.push w r1) := fun _ => rfl
theorem pull (w : Width) (r1 : RegIdx) : Statement (.pull w r1) := fun _ => rfl
theorem jmp (tgt : Src) : Statement (.jmp tgt) := fun o => length_encodeSrc_target o tgt
theorem jiz (tgt : Src) : Statement (.jiz tgt) := fun o => length_encodeSrc_target o tgt
theorem jnz (tgt : Src) : Statement (.jnz tgt) := fun o => length_encodeSrc_target o tgt
theorem jin (tgt : Src) : Statement (.jin tgt) := fun o => length_encodeSrc_target o tgt
theorem jnn (tgt : Src) : Statement (.jnn tgt) := fun o => length_encodeSrc_target o tgt
theorem jic (tgt : Src) : Statement (.jic tgt) := fun o => length_encodeSrc_target o tgt
theorem jnc (tgt : Src) : Statement (.jnc tgt) := fun o => length_encodeSrc_target o tgt
theorem jio (tgt : Src) : Statement (.jio tgt) := fun o => length_encodeSrc_target o tgt
theorem jno (tgt : Src) : Statement (.jno tgt) := fun o => length_encodeSrc_target o tgt
theorem call (tgt : Src) : Statement (.call tgt) := fun o => length_encodeSrc_target o tgt
theorem retf : Statement .retf := fun _ => rfl
theorem cfl : Statement .cfl := fun _ => rfl
theorem czf : Statement .czf := fun _ => rfl
theorem cnf : Statement .cnf := fun _ => rfl
theorem ccf : Statement .ccf := fun _ => rfl
theorem cof : Statement .cof := fun _ => rfl
theorem szf : Statement .szf := fun _ => rfl
theorem snf : Statement .snf := fun _ => rfl
theorem scf : Statement .scf := fun _ => rfl
theorem sof : Statement .sof := fun _ => rfl
theorem wr (w : Width) (opd : Src) : Statement (.wr w opd) := fun o => length_encodeSrc_wr o w opd
theorem rd : Statement .rd := fun _ => rfl
theorem int : Statement .int := fun _ => rfl
theorem halt : Statement .halt := fun _ => rfl
theorem nop : Statement .nop := fun _ => rfl
theorem stop : Statement .stop := fun _ => rfl

end Sys2Proof.Laws.EncodingLength
end

