-- ==== Sys2Proof/Laws/Step.lean ====
section
/-! SUPPORT. What a step can do, said once: an instruction faults precisely or completes with the effects of `Done`. -/

namespace Sys2Proof.Machine

/-! ## Operands -/

@[simp] theorem cfg_src2 (w : Width) (o : Src) (s : State) : (src2 w o s).2.cfg = s.cfg := by cases o <;> rfl
@[simp] theorem code_src2 (w : Width) (o : Src) (s : State) : (src2 w o s).2.code = s.code := by cases o <;> rfl
@[simp] theorem data_src2 (w : Width) (o : Src) (s : State) : (src2 w o s).2.data = s.data := by cases o <;> rfl
@[simp] theorem status_src2 (w : Width) (o : Src) (s : State) : (src2 w o s).2.status = s.status := by cases o <;> rfl
@[simp] theorem output_src2 (w : Width) (o : Src) (s : State) : (src2 w o s).2.output = s.output := by cases o <;> rfl

@[simp] theorem cfg_addr2 (o : Src) (s : State) : (addr2 o s).2.cfg = s.cfg := by cases o <;> rfl
@[simp] theorem code_addr2 (o : Src) (s : State) : (addr2 o s).2.code = s.code := by cases o <;> rfl
@[simp] theorem data_addr2 (o : Src) (s : State) : (addr2 o s).2.data = s.data := by cases o <;> rfl
@[simp] theorem status_addr2 (o : Src) (s : State) : (addr2 o s).2.status = s.status := by cases o <;> rfl
@[simp] theorem output_addr2 (o : Src) (s : State) : (addr2 o s).2.output = s.output := by cases o <;> rfl

@[simp] theorem cfg_tgt (o : Src) (s : State) : (tgt o s).2.cfg = s.cfg := by cases o <;> rfl
@[simp] theorem code_tgt (o : Src) (s : State) : (tgt o s).2.code = s.code := by cases o <;> rfl
@[simp] theorem data_tgt (o : Src) (s : State) : (tgt o s).2.data = s.data := by cases o <;> rfl
@[simp] theorem status_tgt (o : Src) (s : State) : (tgt o s).2.status = s.status := by cases o <;> rfl
@[simp] theorem output_tgt (o : Src) (s : State) : (tgt o s).2.output = s.output := by cases o <;> rfl

@[simp] theorem cfg_opd1 (o : Src) (s : State) : (opd1 o s).2.cfg = s.cfg := by cases o <;> rfl
@[simp] theorem code_opd1 (o : Src) (s : State) : (opd1 o s).2.code = s.code := by cases o <;> rfl
@[simp] theorem data_opd1 (o : Src) (s : State) : (opd1 o s).2.data = s.data := by cases o <;> rfl
@[simp] theorem status_opd1 (o : Src) (s : State) : (opd1 o s).2.status = s.status := by cases o <;> rfl
@[simp] theorem output_opd1 (o : Src) (s : State) : (opd1 o s).2.output = s.output := by cases o <;> rfl

/-! ## One instruction -/

/-- What a completed instruction leaves: the configuration; the status, but for STOP; CODE, but for SP, and DATA, but
for SD, PUSH and CALL, and both in canonical form; the output, but for what WR appends. -/
structure Done (i : Instr) (s t : State) : Prop where
  cfg : t.cfg = s.cfg
  status : t.status = if i = .stop then .halted else s.status
  code : i.mnemonic ≠ .sp → t.code = s.code
  data : i.mnemonic ≠ .sd → i.mnemonic ≠ .push → i.mnemonic ≠ .call → t.data = s.data
  codeWf : s.code.wf = true → t.code.wf = true
  dataWf : s.data.wf = true → t.data.wf = true
  output : ∃ bs, t.output = s.output ++ bs ∧ (i.mnemonic ≠ .wr → bs = [])

/-- A completion that touches neither segment, nor status, nor output. -/
theorem Done.ofRegs {i : Instr} {s t : State} (hi : i ≠ .stop) (hcfg : t.cfg = s.cfg) (hst : t.status = s.status)
    (hcode : t.code = s.code) (hdata : t.data = s.data) (hout : t.output = s.output) : Done i s t where
  cfg := hcfg
  status := by rw [if_neg hi, hst]
  code _ := hcode
  data _ _ _ := hdata
  codeWf h := hcode ▸ h
  dataWf h := hdata ▸ h
  output := ⟨[], by simp [hout], fun _ => rfl⟩

/-- An instruction answers a next state: it faults precisely, or it is done. -/
theorem exec_cases {i : Instr} {s t : State} (h : exec i s = .next t) :
    (∃ k, t = s.takeFault k) ∨ Done i s t := by
  cases i with
  | add | inc | sub | dec | cmp | mul | not | and | or | xor | shl | shr | set =>
    cases h
    exact .inr (.ofRegs (by simp) (by simp) (by simp) (by simp) (by simp) (by simp))
  | cfl | czf | cnf | ccf | cof | szf | snf | scf | sof | rd | int | halt | nop =>
    cases h
    exact .inr (.ofRegs (by simp) (by simp) (by simp) (by simp) (by simp) (by simp))
  | jmp | jiz | jnz | jin | jnn | jic | jnc | jio | jno =>
    cases h
    right
    dsimp only
    split <;> exact .ofRegs (by simp) (by simp) (by simp) (by simp) (by simp) (by simp)
  | div w r1 r2 =>
    simp only [exec, execDiv] at h
    split at h
    · cases h; exact .inl ⟨_, rfl⟩
    · cases h; exact .inr (.ofRegs (by simp) (by simp) (by simp) (by simp) (by simp) (by simp))
  | pull w r1 =>
    simp only [exec, execPull] at h
    split at h
    · cases h; exact .inr (.ofRegs (by simp) (by simp [State.popped]) (by simp [State.popped])
        (by simp [State.popped]) (by simp [State.popped]) (by simp [State.popped]))
    · cases h; exact .inl ⟨_, rfl⟩
  | retf =>
    simp only [exec, execRetf] at h
    split at h
    · cases h; exact .inr (.ofRegs (by simp) (by simp [State.popped]) (by simp [State.popped])
        (by simp [State.popped]) (by simp [State.popped]) (by simp [State.popped]))
    · cases h; exact .inl ⟨_, rfl⟩
  | ld w r1 r2 =>
    rcases orRaise_eq_next h with h | ⟨_, h⟩
    · obtain ⟨v, -, rfl⟩ := Option.map_eq_some_iff.1 h
      exact .inr (.ofRegs (by simp) (by simp) (by simp) (by simp) (by simp) (by simp))
    · exact .inl ⟨_, h⟩
  | lp w r1 a =>
    rcases orRaise_eq_next h with h | ⟨_, h⟩
    · obtain ⟨v, -, rfl⟩ := Option.map_eq_some_iff.1 h
      exact .inr (.ofRegs (by simp) (by simp) (by simp) (by simp) (by simp) (by simp))
    · exact .inl ⟨_, h⟩
  | sd w r1 a =>
    rcases orRaise_eq_next h with h | ⟨_, h⟩
    · obtain ⟨hb, rfl⟩ := State.memWrite_eq_some h
      exact .inr
        { cfg := by simp, status := by simp, code := fun _ => by simp [State.setSeg]
          data := fun h => absurd rfl h, codeWf := fun h => by simpa [State.setSeg] using h
          dataWf := fun h => Memory.wf_writeW (by simpa [State.seg] using h) hb _ _
          output := ⟨[], by simp, fun _ => rfl⟩ }
    · exact .inl ⟨_, h⟩
  | sp w r1 a =>
    rcases orRaise_eq_next h with h | ⟨_, h⟩
    · obtain ⟨hb, rfl⟩ := State.memWrite_eq_some h
      exact .inr
        { cfg := by simp, status := by simp, code := fun h => absurd rfl h
          data := fun _ _ _ => by simp [State.setSeg], dataWf := fun h => by simpa [State.setSeg] using h
          codeWf := fun h => Memory.wf_writeW (by simpa [State.seg] using h) hb _ _
          output := ⟨[], by simp, fun _ => rfl⟩ }
    · exact .inl ⟨_, h⟩
  | push w r1 =>
    rcases orRaise_eq_next h with h | ⟨_, h⟩
    · obtain ⟨hb, rfl⟩ := State.push_eq_some h
      exact .inr
        { cfg := rfl, status := by simp, code := fun _ => rfl
          data := fun _ h => absurd rfl h, codeWf := fun h => h
          dataWf := fun h => Memory.wf_writeW h hb _ _
          output := ⟨[], by simp, fun _ => rfl⟩ }
    · exact .inl ⟨_, h⟩
  | call o =>
    rcases orRaise_eq_next h with h | ⟨_, h⟩
    · obtain ⟨u, hu, rfl⟩ := Option.map_eq_some_iff.1 h
      obtain ⟨hb, rfl⟩ := State.push_eq_some hu
      exact .inr
        { cfg := by simp, status := by simp, code := fun _ => by simp
          data := fun _ _ h => absurd rfl h, codeWf := fun h => by simpa using h
          dataWf := fun h => Memory.wf_writeW (by simpa using h) hb _ _
          output := ⟨[], by simp, fun _ => rfl⟩ }
    · exact .inl ⟨_, h⟩
  | wr w o =>
    cases w with
    | w8 =>
      cases h
      exact .inr
        { cfg := by simp, status := by simp, code := fun _ => by simp, data := fun _ _ _ => by simp
          codeWf := fun h => by simpa using h, dataWf := fun h => by simpa using h
          output := ⟨_, by simp; rfl, fun h => absurd rfl h⟩ }
    | w16 =>
      rcases orRaise_eq_next h with h | ⟨_, h⟩
      · obtain ⟨bs, -, rfl⟩ := Option.map_eq_some_iff.1 h
        exact .inr
          { cfg := by simp, status := by simp, code := fun _ => by simp, data := fun _ _ _ => by simp
            codeWf := fun h => by simpa using h, dataWf := fun h => by simpa using h
            output := ⟨_, by simp; rfl, fun h => absurd rfl h⟩ }
      · exact .inl ⟨_, h⟩
  | stop =>
    cases h
    exact .inr
      { cfg := rfl, status := rfl, code := fun _ => rfl, data := fun _ _ _ => rfl, codeWf := fun h => h
        dataWf := fun h => h, output := ⟨[], by simp, fun _ => rfl⟩ }

/-- Every instruction answers a next state: the model refuses nothing. -/
theorem exec_next (i : Instr) (s : State) : ∃ t, exec i s = .next t := by
  have key : ∀ (k : FaultKind) (o : Option State), ∃ t, orRaise k s o = .next t := by
    intro k o; cases o <;> exact ⟨_, rfl⟩
  cases i with
  | div w r1 r2 => simp only [exec, execDiv]; split <;> exact ⟨_, rfl⟩
  | pull w r1 => simp only [exec, execPull]; split <;> exact ⟨_, rfl⟩
  | retf => simp only [exec, execRetf]; split <;> exact ⟨_, rfl⟩
  | ld | lp | sd | sp | push | call => exact key ..
  | wr w o => cases w; exacts [⟨_, rfl⟩, key ..]
  | _ => exact ⟨_, rfl⟩

/-! ## One step -/

/-- Everything a step that answers a next state says: the core was running, and it ran the fetched instruction, or the
fetch faulted, or it skipped an unknown opcode under the policy `Nop`. -/
theorem step_cases {s t : State} (h : step s = .next t) :
    s.status = .running ∧
    ((∃ i rest, decode s.cfg s.fetchWindow = .ok (i, rest) ∧ exec i s = .next t) ∨
     (decode s.cfg s.fetchWindow = .error .truncated ∧ t = s.takeFault .outOfBounds) ∨
     (∃ op, decode s.cfg s.fetchWindow = .error (.unknownOpcode op) ∧
       ((s.cfg.unknownOpcodePolicy = .fault ∧ t = s.takeFault .unknownOpcode) ∨
        (s.cfg.unknownOpcodePolicy = .nop ∧ t = s.advance 2)))) := by
  unfold step at h
  split at h
  · cases h
  · cases h
  · refine ⟨‹_›, ?_⟩
    split at h
    · exact .inl ⟨_, _, ‹_›, h⟩
    · rename_i e he
      cases e with
      | truncated => cases h; exact .inr (.inl ⟨he, rfl⟩)
      | unknownOpcode op =>
        refine .inr (.inr ⟨op, he, ?_⟩)
        simp only [fetchFailed, unknownOpcode] at h
        split at h
        · cases h; exact .inl ⟨‹_›, rfl⟩
        · cases h; exact .inr ⟨‹_›, rfl⟩

end Sys2Proof.Machine
end

