-- ==== Sys2Proof/Tests/Slice0.lean ====
section
/-! SUPPORT. The model's own tests: ill-formed terms refused; words written out from spec/30_encoding.md R70 decoded;
one step per instruction against the vectors of spec/95_test_vectors.md, whose id stands in each docstring; and a
witness for the hypotheses of every obligation that has some. -/

namespace Sys2Proof.Tests

open Sys2Proof Sys2Proof.Machine Sys2Proof.Rules

/-! ## Helpers -/

/-- A configuration for the tests: a table that meets the constraint of R72, and the spec's defaults. -/
def testConfig : Config where
  opc := witnessOpcodes
  unknownOpcodePolicy := .fault
  dataByteOrder := .big
  resetRegs := .zero
  faultExitCode := 1

/-- The opcode byte of a mnemonic in the tests. -/
def op (m : Mnemonic) : Byte := opcOf witnessOpcodes m

/-- A running state with bytes of CODE at pc, bytes of DATA, and the other registers given. -/
def at_ (pc : Word) (bytes : List Byte) (rs : List (RegIdx × Word)) (data : List (Word × List Byte)) : State :=
  rs.foldl (fun s p => s.setX p.1 p.2)
    { (State.start testConfig).setPc pc with
      code := Memory.place [] pc bytes, data := data.foldl (fun m p => m.place p.1 p.2) [] }

/-- A next state of which `p` holds. -/
def ends (r : Result) (p : State → Bool) : Bool :=
  match r with
  | .next t => p t
  | .fault _ => false
  | .refused _ => false

theorem exists_of_ends {r : Result} {p : State → Bool} (h : ends r p = true) : ∃ t, r = .next t ∧ p t = true := by
  cases r with
  | next t => exact ⟨t, rfl, h⟩
  | fault _ => cases h
  | refused _ => cases h

/-- The decoder reads exactly this instruction, and these bytes are left over. -/
def decodes (c : Config) (bs : List Byte) (i : Instr) (rest : List Byte) : Bool :=
  match decode c bs with
  | .ok (j, r) => j == i && r == rest
  | .error _ => false

/-- The state has faulted with this kind, pc and opcode, and the registers are those it began with. -/
def faultedFrom (s : State) (k : FaultKind) (o : Byte) (t : State) : Bool :=
  t.status == .faulted k s.pc o && t.regs == s.regs && t.code == s.code && t.data == s.data && t.output == s.output

/-! ## Ill-formed terms are refused -/

/-- An 8-bit operand's immediate is one byte (R76): 255 fits, 256 does not. -/
theorem test_wf_add : (Instr.add .w8 0 (.imm 255)).wf = true ∧ (Instr.add .w8 0 (.imm 256)).wf = false := by decide

/-- An 8-bit operand's immediate is one byte (R76): 255 fits, 256 does not. -/
theorem test_wf_sub : (Instr.sub .w8 0 (.imm 255)).wf = true ∧ (Instr.sub .w8 0 (.imm 256)).wf = false := by decide

/-- An 8-bit operand's immediate is one byte (R76): 255 fits, 256 does not. -/
theorem test_wf_cmp : (Instr.cmp .w8 0 (.imm 255)).wf = true ∧ (Instr.cmp .w8 0 (.imm 256)).wf = false := by decide

/-- An 8-bit operand's immediate is one byte (R76): 255 fits, 256 does not. -/
theorem test_wf_and : (Instr.and .w8 0 (.imm 255)).wf = true ∧ (Instr.and .w8 0 (.imm 256)).wf = false := by decide

/-- An 8-bit operand's immediate is one byte (R76): 255 fits, 256 does not. -/
theorem test_wf_or : (Instr.or .w8 0 (.imm 255)).wf = true ∧ (Instr.or .w8 0 (.imm 256)).wf = false := by decide

/-- An 8-bit operand's immediate is one byte (R76): 255 fits, 256 does not. -/
theorem test_wf_xor : (Instr.xor .w8 0 (.imm 255)).wf = true ∧ (Instr.xor .w8 0 (.imm 256)).wf = false := by decide

/-- An 8-bit operand's immediate is one byte (R76): 255 fits, 256 does not. -/
theorem test_wf_set : (Instr.set .w8 0 (.imm 255)).wf = true ∧ (Instr.set .w8 0 (.imm 256)).wf = false := by decide

/-- An 8-bit operand's immediate is one byte (R76, R80). -/
theorem test_wf_wr : (Instr.wr .w8 (.imm 255)).wf = true ∧ (Instr.wr .w8 (.imm 256)).wf = false := by decide

/-- An address or a target has 16 bits whatever the width bit says (R78, R79). -/
theorem test_wf_address : (Instr.sd .w8 0 (.imm 0xFFFF)).wf = true ∧ (Instr.jmp (.imm 0xFFFF)).wf = true := by decide

/-- `OPC` is injective (R72): two mnemonics on one byte, or one on the byte of SET, are refused. -/
theorem test_wf_opcodes :
    witnessOpcodes.wf = true ∧ ({ witnessOpcodes with inc := witnessOpcodes.sub } : OpcTable).wf = false ∧
      ({ witnessOpcodes with nop := 0x05 } : OpcTable).wf = false := by decide

/-- `FAULT_EXIT_CODE` is nonzero (R223). -/
theorem test_wf_config : testConfig.wf = true ∧ ({ testConfig with faultExitCode := 0 } : Config).wf = false := by
  decide

/-- The canonical form of a segment: rising indices, in range (R34), no zero entry. -/
theorem test_wf_memory :
    Memory.wf [(0, 1), (0xFFFF, 2)] = true ∧ Memory.wf [(1, 1), (0, 1)] = false ∧ Memory.wf [(0, 1), (0, 2)] = false ∧
      Memory.wf [(3, 0)] = false ∧ Memory.wf [(65536, 1)] = false := by decide

/-! ## Decoding: words written out bit by bit (R70: opcode byte, then w rrr sss i) -/

/-- ADD, SUB, CMP, AND, OR, XOR: register-1, then register-2 or a W-bit immediate (R74, R77). -/
theorem test_decode_alu_two :
    (decodes testConfig [0b00010000, 0b10110010] (.add .w16 3 (.reg 1)) [] &&
      decodes testConfig [op .sub, 0b10100101, 0x12, 0x34] (.sub .w16 2 (.imm 0x1234)) [] &&
      decodes testConfig [op .cmp, 0b01110001, 0xFE] (.cmp .w8 7 (.imm 0xFE)) [] &&
      decodes testConfig [op .and, 0b00011100] (.and .w8 1 (.reg 6)) [] &&
      decodes testConfig [op .or, 0b11000001, 0x80, 0x01] (.or .w16 4 (.imm 0x8001)) [] &&
      decodes testConfig [op .xor, 0b10011110] (.xor .w16 1 (.reg 7)) []) = true := by decide

/-- INC, DEC, NOT, SHL, SHR: register-1 alone; MUL and DIV: two registers (R74). -/
theorem test_decode_alu_one :
    (decodes testConfig [op .inc, 0b11010000] (.inc .w16 5) [] &&
      decodes testConfig [op .dec, 0b01000000] (.dec .w8 4) [] &&
      decodes testConfig [op .not, 0b10110000] (.not .w16 3) [] &&
      decodes testConfig [op .shl, 0b00100000] (.shl .w8 2) [] &&
      decodes testConfig [op .shr, 0b11110000] (.shr .w16 7) [] &&
      decodes testConfig [op .mul, 0b10011010] (.mul .w16 1 5) [] &&
      decodes testConfig [op .div, 0b01100110] (.div .w8 6 3) []) = true := by decide

/-- The memory transfer family (R74, R78): a 16-bit address immediate whatever w says. -/
theorem test_decode_transfer :
    (decodes testConfig [op .ld, 0b10010100] (.ld .w16 1 2) [] &&
      decodes testConfig [op .sd, 0b01000001, 0x00, 0x30] (.sd .w8 4 (.imm 0x0030)) [] &&
      decodes testConfig [op .lp, 0b10110110] (.lp .w16 3 (.reg 3)) [] &&
      decodes testConfig [op .sp, 0b10000001, 0x00, 0x08] (.sp .w16 0 (.imm 0x0008)) [] &&
      decodes testConfig [0b00000101, 0b11010001, 0x00, 0x40] (.set .w16 5 (.imm 0x0040)) [] &&
      decodes testConfig [op .push, 0b00010000] (.push .w8 1) [] &&
      decodes testConfig [op .pull, 0b10100000] (.pull .w16 2) []) = true := by decide

/-- The control-flow family (R79): the target is an immediate or register-1. -/
theorem test_decode_control :
    (decodes testConfig [op .jmp, 0b11010000] (.jmp (.reg 5)) [] &&
      decodes testConfig [op .jiz, 0b10000001, 0x01, 0x02] (.jiz (.imm 0x0102)) [] &&
      decodes testConfig [op .jnz, 0b10110000] (.jnz (.reg 3)) [] &&
      decodes testConfig [op .jin, 0b10000001, 0x00, 0x40] (.jin (.imm 0x0040)) [] &&
      decodes testConfig [op .jnn, 0b10010000] (.jnn (.reg 1)) [] &&
      decodes testConfig [op .jic, 0b10000001, 0xFF, 0xFF] (.jic (.imm 0xFFFF)) [] &&
      decodes testConfig [op .jnc, 0b11100000] (.jnc (.reg 6)) [] &&
      decodes testConfig [op .jio, 0b10000001, 0x00, 0x01] (.jio (.imm 0x0001)) [] &&
      decodes testConfig [op .jno, 0b10000000] (.jno (.reg 0)) [] &&
      decodes testConfig [op .call, 0b10000001, 0x00, 0x10] (.call (.imm 0x0010)) [] &&
      decodes testConfig [op .retf, 0b00000000] (.retf) []) = true := by decide

/-- Flag management: no operand (R74); the specifier byte is ignored (R82, F10). -/
theorem test_decode_flagops :
    (decodes testConfig [op .cfl, 0b00000000] (.cfl) [] &&
      decodes testConfig [op .czf, 0b00000000] (.czf) [] &&
      decodes testConfig [op .cnf, 0b00000000] (.cnf) [] &&
      decodes testConfig [op .ccf, 0b00000000] (.ccf) [] &&
      decodes testConfig [op .cof, 0b00000000] (.cof) [] &&
      decodes testConfig [op .szf, 0b11111111] (.szf) [] &&
      decodes testConfig [op .snf, 0b00000000] (.snf) [] &&
      decodes testConfig [op .scf, 0b00000000] (.scf) [] &&
      decodes testConfig [op .sof, 0b00000000] (.sof) []) = true := by decide

/-- I/O and miscellaneous (R74, R80). -/
theorem test_decode_io :
    (decodes testConfig [op .wr, 0b00000001, 0x41] (.wr .w8 (.imm 0x41)) [] &&
      decodes testConfig [op .wr, 0b10100000] (.wr .w16 (.reg 2)) [] &&
      decodes testConfig [op .rd, 0b00000000] (.rd) [] &&
      decodes testConfig [op .int, 0b00000000] (.int) [] &&
      decodes testConfig [op .halt, 0b00000000] (.halt) [] &&
      decodes testConfig [op .nop, 0b00000000] (.nop) [] &&
      decodes testConfig [0b00110100, 0b00000000] (.stop) []) = true := by decide

/-- An ignored immediate bit consumes no bytes (V11, T3; R82): the byte after the word is left over. -/
theorem test_decode_ignored_immediate_bit :
    (decodes testConfig [op .inc, 0b10000001, 0xAA] (.inc .w16 0) [0xAA] &&
      decodes testConfig [op .ld, 0b10010101, 0xAA] (.ld .w16 1 2) [0xAA]) = true := by decide

/-- A 16-bit immediate in the other byte order (R54, R76). -/
theorem test_decode_little_endian :
    decodes { testConfig with dataByteOrder := .little } [0b00000101, 0b10000001, 0x34, 0x12]
      (.set .w16 0 (.imm 0x1234)) [] = true := by decide

/-- Bytes that end too soon, and an opcode byte no mnemonic has, are rejected by name (R83). -/
theorem test_decode_rejects :
    (match decode testConfig [0x05, 0x81, 0x00] with | .error e => decide (e = .truncated) | .ok _ => false) = true ∧
      (match decode testConfig [0x00, 0x00] with
        | .error e => decide (e = .unknownOpcode 0x00) | .ok _ => false) = true := by decide

/-- The words of the three rows whose opcode byte the spec gives, numbered as spec/opcode_table.json numbers them. -/
theorem test_decode_table_words :
    decodeTableWord 16 0x1082 = some (.add .w16 0 (.reg 1)) ∧ decodeTableWord 16 0x3400 = some .stop ∧
      decodeTableWord 32 0x002A0581 = some (.set .w16 0 (.imm 0x002A)) := by decide

/-- A word placed by `withFetchWord` at reset is what the next step runs (M2). -/
theorem test_withFetchWord :
    ends (step (State.reset.withFetchWord 16 0x3400)) (fun t => t.status == .halted && t.x 5 == 2) = true := by decide

/-! ## One step per instruction -/

/-- V7: the word at 0xFFFE, the immediate at the wrapped pc. -/
theorem test_set_wraps_pc :
    ends (step (at_ 0xFFFE [0x05, 0x81, 0x00, 0x07] [] [])) (fun t => t.x 0 == 7 && t.x 5 == 2) = true := by decide

/-- V3: SET r0h, r0l. -/
theorem test_set_high_byte :
    ends (step (at_ 0 [0x05, 0x40] [(0, 0x1234)] [])) (fun t => t.x 0 == 0x3434 && t.x 5 == 2) = true := by decide

/-- V6: a word at 0xFFFF. -/
theorem test_fetch_word_faults :
    ends (step (at_ 0xFFFF [0x34] [] []))
      (faultedFrom (at_ 0xFFFF [0x34] [] []) .outOfBounds (0x34)) = true := by decide

/-- V9: an immediate that crosses the segment top. -/
theorem test_fetch_immediate_faults :
    ends (step (at_ 0xFFFD [0x05, 0x81, 0xAB] [] []))
      (faultedFrom (at_ 0xFFFD [0x05, 0x81, 0xAB] [] []) .outOfBounds (0x05)) = true := by decide

/-- V10, policy `Fault`. -/
theorem test_unknown_opcode_faults :
    ends (step (at_ 0 [0x00, 0x00] [] []))
      (faultedFrom (at_ 0 [0x00, 0x00] [] []) .unknownOpcode (0x00)) = true := by decide

/-- V10, policy `Nop`. -/
theorem test_unknown_opcode_skipped :
    ends (step { at_ 0 [0x00, 0x00] [] [] with cfg := { testConfig with unknownOpcodePolicy := .nop } })
      (fun t => t.x 5 == 2 && t.status == .running) = true := by decide

/-- L1-S2: ADD with carry. -/
theorem test_add :
    ends (step (at_ 0 [0x10, 0x82] [(0, 0xFFFF), (1, 1)] []))
      (fun t => t.x 0 == 0 && t.x 7 == 0x0005 && t.x 5 == 2) = true := by decide

/-- A39: the register write comes before the flag assignments. -/
theorem test_add_to_flags :
    ends (step (at_ 0 [0x10, 0xF1, 0x00, 0x10] [] [])) (fun t => t.x 7 == 0x0010 && t.x 5 == 4) = true := by decide

/-- A8: INC r1h. -/
theorem test_inc :
    ends (step (at_ 0 [op .inc, 0x50] [(1, 0xFF00)] [])) (fun t => t.x 1 == 0 && t.x 7 == 0x0005) = true := by decide

/-- A13: N is the signed order, C is unchanged. -/
theorem test_sub :
    ends (step (at_ 0 [op .sub, 0x82] [(0, 0xFFFF), (1, 1), (7, 4)] []))
      (fun t => t.x 0 == 0xFFFE && t.x 7 == 0x0006) = true := by decide

/-- A11: N of the exact difference. -/
theorem test_sub_overflow :
    ends (step (at_ 0 [op .sub, 0x82] [(0, 0x8000), (1, 1)] []))
      (fun t => t.x 0 == 0x7FFF && t.x 7 == 0x0002) = true := by decide

/-- A15. -/
theorem test_dec :
    ends (step (at_ 0 [op .dec, 0x80] [] [])) (fun t => t.x 0 == 0xFFFF && t.x 7 == 0x0002) = true := by decide

/-- A17. -/
theorem test_cmp :
    ends (step (at_ 0 [op .cmp, 0x81, 0x00, 0x01] [(0, 0xFFFF)] []))
      (fun t => t.x 0 == 0xFFFF && t.x 7 == 0x0002 && t.x 5 == 4) = true := by decide

/-- A19. -/
theorem test_mul :
    ends (step (at_ 0 [op .mul, 0x82] [(0, 0xFFFF), (1, 0xFFFF)] []))
      (fun t => t.x 0 == 1 && t.x 1 == 0xFFFE && t.x 7 == 0x0008) = true := by decide

/-- A23: the high half is written second. -/
theorem test_mul_same_register :
    ends (step (at_ 0 [op .mul, 0x80] [(0, 0x0300)] [])) (fun t => t.x 0 == 9 && t.x 7 == 0x0008) = true := by decide

/-- A25. -/
theorem test_div :
    ends (step (at_ 0 [op .div, 0x82] [(0, 100), (1, 7)] []))
      (fun t => t.x 0 == 14 && t.x 1 == 2 && t.x 7 == 0x0004) = true := by decide

/-- A28. -/
theorem test_div_by_zero :
    ends (step (at_ 0 [op .div, 0x82] [(0, 0x0010)] []))
      (faultedFrom (at_ 0 [op .div, 0x82] [(0, 0x0010)] []) .divisionByZero (op .div)) = true := by decide

/-- A31. -/
theorem test_not :
    ends (step (at_ 0 [op .not, 0x80] [(0, 0xFFFF)] [])) (fun t => t.x 0 == 0 && t.x 7 == 1) = true := by decide

/-- A40: AND flags, #0. -/
theorem test_and :
    ends (step (at_ 0 [op .and, 0xF1, 0x00, 0x00] [(7, 0x001F)] [])) (fun t => t.x 7 == 1) = true := by decide

/-- A33. -/
theorem test_or :
    ends (step (at_ 0 [op .or, 0x01, 0x80] [(0, 0x1200)] []))
      (fun t => t.x 0 == 0x1280 && t.x 7 == 0 && t.x 5 == 3) = true := by decide

/-- A34. -/
theorem test_xor :
    ends (step (at_ 0 [op .xor, 0x92] [(1, 0xBEEF)] [])) (fun t => t.x 1 == 0 && t.x 7 == 1) = true := by decide

/-- A36. -/
theorem test_shl :
    ends (step (at_ 0 [op .shl, 0x00] [(0, 0x1281)] [])) (fun t => t.x 0 == 0x1202 && t.x 7 == 0) = true := by decide

/-- A38. -/
theorem test_shr :
    ends (step (at_ 0 [op .shr, 0x40] [(0, 0x8101)] [])) (fun t => t.x 0 == 0x4001 && t.x 7 == 0) = true := by decide

/-- T1. -/
theorem test_ld :
    ends (step (at_ 0 [op .ld, 0x94] [(2, 0x20)] [(0x20, [0xBE, 0xEF])]))
      (fun t => t.x 1 == 0xBEEF && t.x 5 == 2) = true := by decide

/-- T4. -/
theorem test_ld_faults :
    ends (step (at_ 0 [op .ld, 0x82] [(1, 0xFFFF)] []))
      (faultedFrom (at_ 0 [op .ld, 0x82] [(1, 0xFFFF)] []) .outOfBounds (op .ld)) = true := by decide

/-- T6. -/
theorem test_sd :
    ends (step (at_ 0 [op .sd, 0x81, 0x00, 0x10] [(0, 0x1234)] []))
      (fun t => t.data.read 0x10 == 0x12 && t.data.read 0x11 == 0x34 && t.x 5 == 4) = true := by decide

/-- T7. -/
theorem test_sd_high_byte :
    ends (step (at_ 0 [op .sd, 0x42] [(0, 0xAB00), (1, 0x30)] []))
      (fun t => t.data == [(0x30, 0xAB)]) = true := by decide

/-- T8, with the LP word itself at index 0. -/
theorem test_lp :
    ends (step (at_ 0 [op .lp, 0x81, 0x00, 0x02] [] [])) (fun t => t.x 0 == 0x0002 && t.x 5 == 4) = true := by decide

/-- T9. -/
theorem test_sp :
    ends (step (at_ 0 [op .sp, 0x81, 0x00, 0x08] [(0, 0x3400)] []))
      (fun t => t.code.read 8 == 0x34 && t.code.read 9 == 0 && t.data == []) = true := by decide

/-- T20: PUSH rsp stores the value before the increment. -/
theorem test_push :
    ends (step (at_ 0 [op .push, 0xC0] [(4, 0x0010)] []))
      (fun t => t.data.read 0x10 == 0 && t.data.read 0x11 == 0x10 && t.x 4 == 0x12) = true := by decide

/-- T18. -/
theorem test_push_wraps_rsp :
    ends (step (at_ 0 [op .push, 0x80] [(4, 0xFFFE), (0, 0x1122)] []))
      (fun t => t.data == [(0xFFFE, 0x11), (0xFFFF, 0x22)] && t.x 4 == 0) = true := by decide

/-- T14. -/
theorem test_pull :
    ends (step (at_ 0 [op .pull, 0xA0] [(4, 2)] [(0, [0xAB, 0xCD])]))
      (fun t => t.x 2 == 0xABCD && t.x 4 == 0) = true := by decide

/-- T15. -/
theorem test_pull_underflows :
    ends (step (at_ 0 [op .pull, 0x80] [(4, 1)] []))
      (faultedFrom (at_ 0 [op .pull, 0x80] [(4, 1)] []) .stackUnderflow (op .pull)) = true := by decide

/-- J3: JMP rpp reads the advanced pc. -/
theorem test_jmp :
    ends (step (at_ 0x10 [op .jmp, 0xD0] [] [])) (fun t => t.x 5 == 0x12) = true := by decide

/-- J4. -/
theorem test_jiz :
    ends (step (at_ 0x10 [op .jiz, 0x81, 0x00, 0x40] [(7, 1)] [])) (fun t => t.x 5 == 0x40) = true := by decide

/-- J5: the target is consumed. -/
theorem test_jiz_not_taken :
    ends (step (at_ 0x10 [op .jiz, 0x81, 0x00, 0x40] [(7, 0xFFFE)] [])) (fun t => t.x 5 == 0x14) = true := by decide

/-- J6. -/
theorem test_jnz :
    ends (step (at_ 0x10 [op .jnz, 0xB0] [(3, 2)] [])) (fun t => t.x 5 == 2) = true := by decide

/-- J8. -/
theorem test_jin :
    ends (step (at_ 0x10 [op .jin, 0x81, 0x00, 0x40] [(7, 2)] [])) (fun t => t.x 5 == 0x40) = true := by decide

/-- J8. -/
theorem test_jnn :
    ends (step (at_ 0x10 [op .jnn, 0x81, 0x00, 0x40] [(7, 2)] [])) (fun t => t.x 5 == 0x14) = true := by decide

/-- J9. -/
theorem test_jic :
    ends (step (at_ 0x10 [op .jic, 0x81, 0x00, 0x40] [] [])) (fun t => t.x 5 == 0x14) = true := by decide

/-- J9. -/
theorem test_jnc :
    ends (step (at_ 0x10 [op .jnc, 0x81, 0x00, 0x40] [] [])) (fun t => t.x 5 == 0x40) = true := by decide

/-- J10. -/
theorem test_jio :
    ends (step (at_ 0x10 [op .jio, 0x81, 0x00, 0x40] [(7, 8)] [])) (fun t => t.x 5 == 0x40) = true := by decide

/-- J10. -/
theorem test_jno :
    ends (step (at_ 0x10 [op .jno, 0x81, 0x00, 0x40] [(7, 8)] [])) (fun t => t.x 5 == 0x14) = true := by decide

/-- J12. -/
theorem test_call :
    ends (step (at_ 0x10 [op .call, 0x81, 0x01, 0x00] [] []))
      (fun t => t.data.read 0 == 0 && t.data.read 1 == 0x14 && t.x 4 == 2 && t.x 5 == 0x100) = true := by decide

/-- J14. -/
theorem test_call_faults :
    ends (step (at_ 0 [op .call, 0x81, 0x01, 0x00] [(4, 0xFFFF)] []))
      (faultedFrom (at_ 0 [op .call, 0x81, 0x01, 0x00] [(4, 0xFFFF)] []) .outOfBounds (op .call)) = true := by decide

/-- J15. -/
theorem test_retf :
    ends (step (at_ 0 [op .retf, 0x00] [(4, 2)] [(0, [0x00, 0x14])]))
      (fun t => t.x 5 == 0x14 && t.x 4 == 0) = true := by decide

/-- J16. -/
theorem test_retf_underflows :
    ends (step (at_ 0 [op .retf, 0x00] [(4, 1)] []))
      (faultedFrom (at_ 0 [op .retf, 0x00] [(4, 1)] []) .stackUnderflow (op .retf)) = true := by decide

/-- F1. -/
theorem test_cfl :
    ends (step (at_ 0 [op .cfl, 0x00] [(7, 0xFFFF)] [])) (fun t => t.x 7 == 0xFFF0 && t.x 5 == 2) = true := by decide

/-- F2. -/
theorem test_czf :
    ends (step (at_ 0 [op .czf, 0x00] [(7, 0x0001)] [])) (fun t => t.x 7 == 0 && t.x 5 == 2) = true := by decide

/-- F3. -/
theorem test_cnf :
    ends (step (at_ 0 [op .cnf, 0x00] [(7, 0x0012)] [])) (fun t => t.x 7 == 0x0010 && t.x 5 == 2) = true := by decide

/-- F4. -/
theorem test_ccf :
    ends (step (at_ 0 [op .ccf, 0x00] [(7, 0x0004)] [])) (fun t => t.x 7 == 0 && t.x 5 == 2) = true := by decide

/-- F5. -/
theorem test_cof :
    ends (step (at_ 0 [op .cof, 0x00] [(7, 0x0008)] [])) (fun t => t.x 7 == 0 && t.x 5 == 2) = true := by decide

/-- F6. -/
theorem test_szf :
    ends (step (at_ 0 [op .szf, 0x00] [(7, 0x0010)] [])) (fun t => t.x 7 == 0x0011 && t.x 5 == 2) = true := by decide

/-- F7. -/
theorem test_snf :
    ends (step (at_ 0 [op .snf, 0x00] [(7, 0)] [])) (fun t => t.x 7 == 0x0002 && t.x 5 == 2) = true := by decide

/-- F8. -/
theorem test_scf :
    ends (step (at_ 0 [op .scf, 0x00] [(7, 0)] [])) (fun t => t.x 7 == 0x0004 && t.x 5 == 2) = true := by decide

/-- F9. -/
theorem test_sof :
    ends (step (at_ 0 [op .sof, 0x00] [(7, 0)] [])) (fun t => t.x 7 == 0x0008 && t.x 5 == 2) = true := by decide

/-- W1: a string and the newline. -/
theorem test_wr :
    ends (step (at_ 0 [op .wr, 0x81, 0x00, 0x40] [] [(0x40, [0x48, 0x69])]))
      (fun t => t.output == [0x48, 0x69, 0x0A] && t.x 5 == 4) = true := by decide

/-- L1-S3: one byte, no newline. -/
theorem test_wr_byte :
    ends (step (at_ 0 [op .wr, 0x01, 0x41] [] [])) (fun t => t.output == [0x41] && t.x 5 == 3) = true := by decide

/-- M1: nothing but the advance. -/
theorem test_rd :
    ends (step (at_ 0 [op .rd, 0xFF] [(0, 5), (7, 0x1F)] []))
      (fun t => t == (at_ 0 [op .rd, 0xFF] [(0, 5), (7, 0x1F)] []).setPc 2) = true := by decide

/-- M1: nothing but the advance. -/
theorem test_int :
    ends (step (at_ 0 [op .int, 0xFF] [(0, 5), (7, 0x1F)] []))
      (fun t => t == (at_ 0 [op .int, 0xFF] [(0, 5), (7, 0x1F)] []).setPc 2) = true := by decide

/-- M1: nothing but the advance. -/
theorem test_halt :
    ends (step (at_ 0 [op .halt, 0xFF] [(0, 5), (7, 0x1F)] []))
      (fun t => t == (at_ 0 [op .halt, 0xFF] [(0, 5), (7, 0x1F)] []).setPc 2) = true := by decide

/-- M1: nothing but the advance. -/
theorem test_nop :
    ends (step (at_ 0 [op .nop, 0xFF] [(0, 5), (7, 0x1F)] []))
      (fun t => t == (at_ 0 [op .nop, 0xFF] [(0, 5), (7, 0x1F)] []).setPc 2) = true := by decide

/-- M2. -/
theorem test_stop :
    ends (step (at_ 4 [0x34, 0x00] [] [])) (fun t => t.status == .halted && t.x 5 == 6) = true := by decide

/-- R35: no step is taken from a halted core. -/
theorem test_halted_stays :
    (match step { State.reset with status := .halted } with | .fault r => decide (r = .coreHalted) | _ => false) = true :=
  by decide

/-! ## Witnesses: a state and operands that meet all hypotheses of an obligation, clause by clause -/

/-- For DecodeOfEncodeIsTheInstruction, and with the other obligations over an admissible configuration. -/
theorem witness_DecodeOfEncodeIsTheInstruction :
    testConfig.wf = true ∧ (Instr.add .w8 7 (.imm 255)).wf = true ∧ (Instr.call (.imm 0xFFFF)).wf = true := by decide

/-- For OpcIsInjectiveWithThreeFixedBytes: a table that meets the constraint. -/
theorem witness_OpcIsInjectiveWithThreeFixedBytes : testConfig.wf = true ∧ mnemonicOf testConfig.opc 0x05 = some .set := by
  decide

/-- For IgnoredFieldsHaveNoEffect: two specifiers that differ in ignored fields only, and an ignored immediate bit. -/
theorem witness_IgnoredFieldsHaveNoEffect :
    testConfig.wf = true ∧ AgreeOnRead .inc 0b10000000 0b10001111 ∧ AgreeOnRead .jmp 0b00010000 0b10011110 ∧
      (fieldsRead .inc).2.2.2 = false := by
  unfold AgreeOnRead; decide

/-- For InstructionLengthIsTwoPlusImmediate, at 0, 1 and 2 immediate bytes. -/
theorem witness_InstructionLengthIsTwoPlusImmediate :
    testConfig.wf = true ∧ (∃ i r, decode testConfig [0x34, 0x00] = .ok (i, r)) ∧
      (∃ i r, decode testConfig [0x05, 0x01, 0xFF] = .ok (i, r)) ∧
      (∃ i r, decode testConfig [0x05, 0x81, 0xFF, 0xFF] = .ok (i, r)) :=
  ⟨by decide, ⟨_, _, rfl⟩, ⟨_, _, rfl⟩, ⟨_, _, rfl⟩⟩

/-- For StepRunsTheEncodedInstruction, with the immediate at the top of CODE and with the immediate at the wrapped pc. -/
theorem witness_StepRunsTheEncodedInstruction : ∀ pc ∈ [(0xFFFC : Word), 0xFFFE],
    let s := at_ pc [0x05, 0b10000001, 0xAB, 0xCD] [] []
    let i := Instr.set .w16 0 (.imm 0xABCD)
    s.status = .running ∧ s.cfg.wf = true ∧ i.wf = true ∧ s.pc.toNat + 1 ≤ 0xFFFF ∧
      s.code.read s.pc.toNat = opcOf s.cfg.opc i.mnemonic ∧ s.code.read (s.pc.toNat + 1) = i.spec ∧
      (s.pc + 2).toNat + (i.immBytes s.cfg.dataByteOrder).length ≤ 65536 ∧
      i.immBytes s.cfg.dataByteOrder = [0xAB, 0xCD] ∧
      s.code.read (s.pc + 2).toNat = 0xAB ∧ s.code.read ((s.pc + 2).toNat + 1) = 0xCD := by
  intro pc h
  simp only [List.mem_cons, List.not_mem_nil, or_false] at h
  rcases h with rfl | rfl
  all_goals exact ⟨rfl, (by decide : testConfig.wf = true), rfl, by decide, by decide, by decide, by decide, rfl,
    by decide, by decide⟩

/-- For FetchFaultsComeInOrder: each clause, at its boundary. -/
theorem witness_FetchFaultsComeInOrder :
    (let s := at_ 0xFFFF [0x34] [] []
     s.status = .running ∧ s.pc.toNat + 1 > 0xFFFF) ∧
    (let s := at_ 0xFFFE [0x00, 0x00] [] []
     s.status = .running ∧ s.pc.toNat + 1 ≤ 0xFFFF ∧ mnemonicOf s.cfg.opc (s.code.read s.pc.toNat) = none ∧
       s.cfg.unknownOpcodePolicy = .fault) ∧
    (let s := at_ 0xFFFD [0x05, 0x81, 0xAB] [] []
     s.status = .running ∧ s.pc.toNat + 1 ≤ 0xFFFF ∧ mnemonicOf s.cfg.opc (s.code.read s.pc.toNat) = some .set ∧
       immCount .set (fieldW 0x81) (fieldI 0x81) = 2 ∧ (s.pc + 2).toNat + 2 - 1 > 0xFFFF) ∧
    (let s := at_ 0xFFFC [0x05, 0x81, 0xAB, 0xCD] [] []
     s.status = .running ∧ s.pc.toNat + 1 ≤ 0xFFFF ∧ mnemonicOf s.cfg.opc (s.code.read s.pc.toNat) = some .set ∧
       immCount .set (fieldW 0x81) (fieldI 0x81) = 2 ∧ (s.pc + 2).toNat + 2 - 1 ≤ 0xFFFF) := by decide

/-- For UnknownOpcodeFollowsThePolicy: a byte outside the image of the table, under both policies. -/
theorem witness_UnknownOpcodeFollowsThePolicy : ∀ p ∈ [UnknownOpcodePolicy.fault, .nop],
    let s := { at_ 0xFFFE [0x00, 0x00] [] [] with cfg := { testConfig with unknownOpcodePolicy := p } }
    s.cfg.wf = true ∧ s.status = .running ∧ s.pc.toNat + 1 ≤ 0xFFFF ∧
      (∀ m, opcOf s.cfg.opc m ≠ s.code.read s.pc.toNat) ∧ s.cfg.unknownOpcodePolicy = p := by
  intro p _
  have h : ∀ m ∈ (Mnemonic.set :: .add :: .stop :: openMnemonics), opcOf witnessOpcodes m ≠ 0x00 := by decide
  exact ⟨(by decide : testConfig.wf = true), rfl, (by decide : (0xFFFE : Word).toNat + 1 ≤ 0xFFFF),
    fun m => h m (mem_mnemonics m), rfl⟩

/-- For OnlyStopHalts, EveryStepKeepsTheInvariant and OutputIsAppendOnlyAndNeverRead: a step from a state that meets the
invariant. -/
theorem witness_OnlyStopHalts :
    ∃ s t, Inv s ∧ step s = .next t ∧ t.status = .halted ∧ Fetches s .stop := by
  obtain ⟨t, h, ht⟩ := exists_of_ends (show ends (step (at_ 0 [0x34, 0x00] [] [])) (fun t => t.status == .halted) = true by
    decide)
  exact ⟨_, t, ⟨by decide, by decide, by decide⟩, h, by simpa using ht, _, rfl⟩

/-- For OutputIsAppendOnlyAndNeverRead: a step that outputs. -/
theorem witness_OutputIsAppendOnlyAndNeverRead :
    ∃ s t, step s = .next t ∧ t.output = s.output ++ [0x41] ∧ Fetches s (.wr .w8 (.imm 0x41)) := by
  obtain ⟨t, h, ht⟩ := exists_of_ends
    (show ends (step (at_ 0 [op .wr, 0x01, 0x41] [] [])) (fun t => t.output == [0x41]) = true by decide)
  exact ⟨_, t, h, (by simpa using ht : t.output = [0x41]), _, rfl⟩

/-- A running state whose next step leaves the status `Faulted` with this kind. -/
def stepFaults (s : State) (k : FaultKind) : Bool :=
  ends (step s) (fun t => match t.status with | .faulted k' _ _ => k' == k | _ => false)

/-- For FaultsArePrecise and EachFaultHasItsCause: a step that raises each kind, and `OutOfBounds` by each cause. -/
theorem witness_FaultsArePrecise :
    (stepFaults (at_ 0 [op .div, 0x82] [] []) .divisionByZero &&
      stepFaults (at_ 0 [op .pull, 0x80] [(4, 1)] []) .stackUnderflow &&
      stepFaults (at_ 0 [op .retf, 0x00] [(4, 1)] []) .stackUnderflow &&
      stepFaults (at_ 0 [0x00, 0x00] [] []) .unknownOpcode &&
      stepFaults (at_ 0xFFFF [0x34] [] []) .outOfBounds &&
      stepFaults (at_ 0 [op .ld, 0x82] [(1, 0xFFFF)] []) .outOfBounds &&
      stepFaults (at_ 0 [op .sd, 0x81, 0xFF, 0xFF] [] []) .outOfBounds &&
      stepFaults (at_ 0 [op .lp, 0x81, 0xFF, 0xFF] [] []) .outOfBounds &&
      stepFaults (at_ 0 [op .sp, 0x81, 0xFF, 0xFF] [] []) .outOfBounds &&
      stepFaults (at_ 0 [op .push, 0x80] [(4, 0xFFFF)] []) .outOfBounds &&
      stepFaults (at_ 0 [op .call, 0x80] [(4, 0xFFFF)] []) .outOfBounds &&
      stepFaults (at_ 0 [op .wr, 0x81, 0xFF, 0xFF] [] [(0xFFFF, [1])]) .outOfBounds) = true := by decide

/-- For EachFaultHasItsCause: the same in the form of its hypotheses. -/
theorem witness_EachFaultHasItsCause :
    ∃ s t k p o, step s = .next t ∧ t.status = .faulted k p o := by
  obtain ⟨t, h, ht⟩ := exists_of_ends (show ends (step (at_ 0 [op .div, 0x82] [] []))
    (fun t => t.status == .faulted .divisionByZero 0 (op .div)) = true by decide)
  exact ⟨_, t, _, _, _, h, by simpa using ht⟩

/-- For EngineStartState: images at the largest size, and one byte larger, under each `RESET_REGS`. -/
theorem witness_EngineStartState :
    (List.replicate 65536 (0x34 : Byte)).length ≤ 65536 ∧ ((none : Option (List Byte)).getD []).length ≤ 65536 ∧
      (List.replicate 65537 (0x34 : Byte)).length > 65536 ∧ testConfig.resetRegs = .zero := by
  simp only [List.length_replicate]; decide

/-- For ExitCodeTellsHaltFromFault: a state of each status. -/
theorem witness_ExitCodeTellsHaltFromFault :
    testConfig.wf = true ∧ (State.start testConfig).status = .running ∧ (State.start testConfig).halt.status = .halted ∧
      ((State.start testConfig).takeFault .outOfBounds).status = .faulted .outOfBounds 0 0 := by decide

/-- For EveryStepKeepsTheInvariant: a state with both segments listed meets the invariant, and steps. -/
theorem witness_EveryStepKeepsTheInvariant :
    ∃ s t, Inv s ∧ step s = .next t ∧ t.data ≠ s.data := by
  obtain ⟨t, h, ht⟩ := exists_of_ends (show ends (step (at_ 0 [op .sd, 0x81, 0x00, 0x10] [(0, 0x1234)] [(5, [6])]))
    (fun t => t.data == [(5, 6), (16, 0x12), (17, 0x34)]) = true by decide)
  refine ⟨_, t, ⟨by decide, by decide, by decide⟩, h, ?_⟩
  rw [show t.data = [(5, 6), (16, 0x12), (17, 0x34)] by simpa using ht]; decide

/-- For FlagsAreWrittenOnlyByTheirWriters, SegmentsAreWrittenOnlyByTheirStores, RintIsReachedOnlyByItsIndex and
InterruptEnableAndReservedBitsAffectNothing: an instruction that meets the hypotheses of each, in every state. -/
theorem witness_FlagsAreWrittenOnlyByTheirWriters (s : State) :
    (∃ t, exec (.add .w16 0 (.reg 1)) s = .next t) ∧ Mnemonic.add ∉ flagWriters 1 ∧ Mnemonic.add ∉ flagWriters 15 ∧
      writesReg RegIdx.flags (.add .w16 0 (.reg 1)) = false ∧ writesReg RegIdx.flags (.add .w8 7 (.reg 1)) = false :=
  ⟨⟨_, rfl⟩, by decide⟩

/-- For SegmentsAreWrittenOnlyByTheirStores: a store to the other segment. -/
theorem witness_SegmentsAreWrittenOnlyByTheirStores :
    (∃ t, exec (.sd .w8 0 (.imm 0)) State.reset = .next t) ∧ (Instr.sd .w8 0 (.imm 0)).mnemonic ≠ .sp ∧
      (∃ t, exec (.sp .w8 0 (.imm 0)) State.reset = .next t) ∧
      (Instr.sp .w8 0 (.imm 0)).mnemonic ∉ [Mnemonic.sd, .push, .call] :=
  ⟨⟨_, rfl⟩, by decide, ⟨_, rfl⟩, by decide⟩

/-- For SequentialInstructionsAdvancePc. -/
theorem witness_SequentialInstructionsAdvancePc :
    ∃ t, State.reset.status = .running ∧ exec (.set .w16 0 (.imm 7)) State.reset = .next t ∧ NotFaulted t ∧
      (Instr.set .w16 0 (.imm 7)).mnemonic ∉ controlFlow ∧ writesReg RegIdx.rpp (.set .w16 0 (.imm 7)) = false :=
  ⟨_, rfl, rfl, fun _ _ _ h => (by cases (show RunStatus.running = _ from h)), by decide, by decide⟩

/-- For RintIsReachedOnlyByItsIndex: the 8-bit index 6 is r2h, not rint. -/
theorem witness_RintIsReachedOnlyByItsIndex (s : State) :
    namesReg RegIdx.rint (.add .w8 6 (.reg 6)) = false ∧ ∃ t, exec (.add .w8 6 (.reg 6)) s = .next t :=
  ⟨by decide, _, rfl⟩

/-- For InterruptEnableAndReservedBitsAffectNothing: a mask of IE and a reserved bit. -/
theorem witness_InterruptEnableAndReservedBitsAffectNothing (s : State) :
    namesReg RegIdx.flags (.jiz (.imm 8)) = false ∧ (∀ k, k < 4 → (0x8010 : Word).getLsbD k = false) ∧
      ∃ t, exec (.jiz (.imm 8)) s = .next t :=
  ⟨by decide, by decide, _, rfl⟩

/-- For MemReadReturnsTheBytesInOrder, MemWriteChangesExactlyItsBytes, LdLoadsFromData, SdStoresToData, LpLoadsFromCode
and SpStoresToCode: the last address of each width, and the first that faults. -/
theorem witness_MemReadReturnsTheBytesInOrder :
    (0xFFFE : Word).toNat + Width.w16.bits / 8 - 1 ≤ 0xFFFF ∧ (0xFFFF : Word).toNat + Width.w8.bits / 8 - 1 ≤ 0xFFFF ∧
      (0xFFFF : Word).toNat + Width.w16.bits / 8 - 1 > 0xFFFF := by decide

/-- For LdLoadsFromData, and by the same bounds for SD, LP and SP: the address in a register. -/
theorem witness_LdLoadsFromData :
    (let s := at_ 0 [] [(2, 0xFFFE)] []
     (regsAt s 2 2).toNat + Width.w16.bits / 8 - 1 ≤ 0xFFFF) ∧
    (let s := at_ 0 [] [(2, 0xFFFF)] []
     (regsAt s 2 2).toNat + Width.w16.bits / 8 - 1 > 0xFFFF) := by decide

/-- For SdStoresToData, LpLoadsFromCode and SpStoresToCode: the immediate address. -/
theorem witness_SdStoresToData (s : State) :
    (addrVal (.imm 0xFFFE) (regsAt s 2)).toNat + Width.w16.bits / 8 - 1 ≤ 0xFFFF ∧
      (addrVal (.imm 0xFFFF) (regsAt s 2)).toNat + Width.w16.bits / 8 - 1 > 0xFFFF := by
  simp [addrVal, Width.bits]

/-- For StoreToCodeIsSeenByTheNextFetch, in both byte orders. -/
theorem witness_StoreToCodeIsSeenByTheNextFetch : ∀ o ∈ [ByteOrder.big, .little],
    let s := { at_ 0 [] [(0, 0x3434)] [] with cfg := { testConfig with dataByteOrder := o } }
    s.cfg.wf = true ∧ s.status = .running ∧
      (∃ t, exec (.sp .w16 0 (.imm 4)) s = .next t ∧ NotFaulted t ∧ addrVal (.imm 4) (regsAt s 2) = t.x RegIdx.rpp) ∧
      (regsAt s 2 0).extractLsb' 8 8 = (0x34 : Byte) ∧ (regsAt s 2 0).extractLsb' 0 8 = (0x34 : Byte) := by
  intro o _
  refine ⟨by cases o <;> decide, rfl, ⟨_, rfl, fun _ _ _ h => (by cases (show RunStatus.running = _ from h)), rfl⟩, ?_, ?_⟩ <;> cases o <;> decide

/-- For DivGivesQuotientAndRemainderOrFaults: a zero divisor and the smallest that is not, in both widths. -/
theorem witness_DivGivesQuotientAndRemainderOrFaults : ∀ w ∈ [Width.w8, .w16],
    (view w (regsAt (at_ 0 [] [(1, 0)] []) 2) 1).toNat = 0 ∧ (view w (regsAt (at_ 0 [] [(1, 1)] []) 2) 1).toNat ≠ 0 := by
  decide

/-- For PushStoresAtRspAndIncrementsIt and CallPushesTheReturnAddress: the last rsp that holds a word, and the next. -/
theorem witness_PushStoresAtRspAndIncrementsIt :
    ((at_ 0 [] [(4, 0xFFFE)] []).x RegIdx.rsp).toNat + Width.w16.bits / 8 - 1 ≤ 0xFFFF ∧
      ((at_ 0 [] [(4, 0xFFFF)] []).x RegIdx.rsp).toNat + Width.w16.bits / 8 - 1 > 0xFFFF ∧
      ((at_ 0 [] [(4, 0xFFFE)] []).x RegIdx.rsp).toNat + 1 ≤ 0xFFFF ∧
      ((at_ 0 [] [(4, 0xFFFF)] []).x RegIdx.rsp).toNat + 1 > 0xFFFF := by decide

/-- For PullDecrementsRspAndLoads and RetfPopsPc: the least rsp that holds the value, and one less, in both widths. -/
theorem witness_PullDecrementsRspAndLoads :
    Width.w16.bits / 8 ≤ ((at_ 0 [] [(4, 2)] []).x RegIdx.rsp).toNat ∧
      ((at_ 0 [] [(4, 1)] []).x RegIdx.rsp).toNat < Width.w16.bits / 8 ∧
      Width.w8.bits / 8 ≤ ((at_ 0 [] [(4, 1)] []).x RegIdx.rsp).toNat ∧
      ((at_ 0 [] [(4, 0)] []).x RegIdx.rsp).toNat < Width.w8.bits / 8 ∧
      2 ≤ ((at_ 0 [] [(4, 2)] []).x RegIdx.rsp).toNat ∧ ((at_ 0 [] [(4, 1)] []).x RegIdx.rsp).toNat < 2 := by decide

/-- For PushThenPullRestoresRegisterAndRsp and CallThenRetfResumesAfterTheCall: the largest rsp, in both widths. -/
theorem witness_PushThenPullRestoresRegisterAndRsp :
    (let sp := ((at_ 0 [] [(4, 0xFFFD)] []).x RegIdx.rsp).toNat
     sp + Width.w16.bits / 8 - 1 ≤ 0xFFFF ∧ sp + Width.w16.bits / 8 ≤ 0xFFFF ∧ sp + 2 ≤ 0xFFFF) ∧
    (let sp := ((at_ 0 [] [(4, 0xFFFE)] []).x RegIdx.rsp).toNat
     sp + Width.w8.bits / 8 - 1 ≤ 0xFFFF ∧ sp + Width.w8.bits / 8 ≤ 0xFFFF) ∧ (3 : RegIdx).val < 4 := by decide

/-- For ConditionalJumpsTestOneFlag: each flag set and clear. -/
theorem witness_ConditionalJumpsTestOneFlag : ∀ k ∈ [0, 1, 2, 3], ∀ b ∈ [true, false],
    ((at_ 0 [] [(7, if b then 0xF else 0)] []).x RegIdx.flags).getLsbD k = b := by decide

/-- For WrOutputsAStringOrAByte: the empty string at the last index, a string of one byte, and no NUL up to the top. -/
theorem witness_WrOutputsAStringOrAByte :
    (let s := at_ 0 [] [] []
     (addrVal (.imm 0xFFFF) (regsAt s 2)).toNat + 0 ≤ 0xFFFF ∧ s.data.read 0xFFFF = 0) ∧
    (let s := at_ 0 [] [] [(0xFFFE, [0x41])]
     (addrVal (.imm 0xFFFE) (regsAt s 2)).toNat + 1 ≤ 0xFFFF ∧ (∀ j, j < 1 → s.data.read (0xFFFE + j) ≠ 0) ∧
       s.data.read (0xFFFE + 1) = 0) ∧
    (let s := at_ 0 [] [] [(0xFFFF, [0x41])]
     ∀ j, (addrVal (.imm 0xFFFF) (regsAt s 2)).toNat ≤ j → j ≤ 0xFFFF → s.data.read j ≠ 0) := by
  refine ⟨by decide, by decide, fun j h1 h2 => ?_⟩
  have : j = 0xFFFF := by simp [addrVal] at h1; omega
  subst this; decide

/-- For the immediate-fetch clause of `Encoded`, in the statement of every instruction that takes a 2-byte immediate. -/
theorem witness_Encoded :
    let s := at_ 0xFFFD [op .jmp, 0x81, 0xAB] [] []
    s.status = .running ∧ s.cfg.wf = true ∧ s.pc.toNat + 1 ≤ 0xFFFF ∧ s.code.read s.pc.toNat = opcOf s.cfg.opc .jmp ∧
      len2 (s.code.read (s.pc.toNat + 1)) = 2 ∧ (s.pc + 2).toNat + 2 - 1 > 0xFFFF :=
  ⟨rfl, by decide, by decide, by decide, by decide, by decide⟩

/-- For StopHaltsAfterTheAdvance. -/
theorem witness_StopHaltsAfterTheAdvance : ∃ t, exec .stop State.reset = .next t := ⟨_, rfl⟩

end Sys2Proof.Tests
end

section
/-! PROOFS. The family of spec/10_state.md, part 1: what one step keeps, when it is taken, and the states the engine
starts in (R34, R35, R37). -/

namespace Sys2Proof.Machine

open Sys2Proof.Rules

/-! ## One step -/

/-- Settles O17: an unknown opcode and a fault leave both segments and the configuration alone, and `Done` says what a
completed instruction keeps. -/
theorem everyStepKeepsTheInvariant : Obligations.EveryStepKeepsTheInvariant := by
  intro s t hinv h
  obtain ⟨hcode, hdata, hcfg⟩ := hinv
  obtain ⟨-, ⟨i, _, -, hexec⟩ | ⟨-, rfl⟩ | ⟨_, -, ⟨-, rfl⟩ | ⟨-, rfl⟩⟩⟩ := step_cases h
  · obtain ⟨k, rfl⟩ | hdone := exec_cases hexec
    · exact ⟨⟨hcode, hdata, hcfg⟩, rfl⟩
    · exact ⟨⟨hdone.codeWf hcode, hdone.dataWf hdata, hdone.cfg ▸ hcfg⟩, hdone.cfg⟩
  all_goals exact ⟨⟨hcode, hdata, hcfg⟩, rfl⟩

/-- Bytes that are no instruction still have a next state: a fault, or the +2 advance (R83). -/
theorem fetchFailed_next (e : DecodeError) (s : State) : ∃ t, fetchFailed e s = .next t := by
  cases e with
  | truncated => exact ⟨_, rfl⟩
  | unknownOpcode op => simp only [fetchFailed, unknownOpcode]; split <;> exact ⟨_, rfl⟩

/-- Settles O9: neither `exec` nor a failed fetch stops a running core. -/
theorem stepsAreTakenExactlyWhileRunning : Obligations.StepsAreTakenExactlyWhileRunning := by
  refine fun s => ⟨fun ⟨t, h⟩ => (step_cases h).1, fun hs => ?_⟩
  simp only [step, hs]
  split
  · exact exec_next _ s
  · exact fetchFailed_next _ s

/-- From a running state an instruction halts the core exactly if it is STOP (R35, R195). -/
theorem exec_halted_iff {i : Instr} {s t : State} (hs : s.status = .running) (h : exec i s = .next t) :
    t.status = .halted ↔ i = .stop := by
  obtain ⟨k, rfl⟩ | hdone := exec_cases h
  · refine ⟨fun hh => by simp at hh, ?_⟩
    rintro rfl
    exact absurd (congrArg State.status (Host.Outcome.next.inj h)) (by simp)
  · rw [hdone.status]
    split <;> simp [*]

/-- Settles O10: a failed fetch halts nothing and fetches nothing, and for a fetched instruction it is
`exec_halted_iff`. -/
theorem onlyStopHalts : Obligations.OnlyStopHalts := by
  intro s t h
  obtain ⟨hs, ⟨i, rest, hd, hexec⟩ | ⟨hd, rfl⟩ | ⟨op, hd, ⟨-, rfl⟩ | ⟨-, rfl⟩⟩⟩ := step_cases h
  · rw [exec_halted_iff hs hexec, Fetches, hd]
    simp
  all_goals simp [Fetches, hd, hs]

/-! ## Engine start -/

/-- An image placed at index `a` lists nothing below it. -/
theorem read_imageFrom_of_lt (bs : List Byte) {a j : Nat} (h : j < a) : (imageFrom a bs).read j = 0 := by
  induction bs generalizing a with
  | nil => rfl
  | cons b bs ih =>
    have tail := ih (Nat.lt_succ_of_lt h)
    simp only [imageFrom]
    split
    · exact tail
    · exact (if_neg h.ne).trans tail

/-- An image placed at index `a` reads as its bytes from there, and as 0 beyond them (R221). -/
theorem read_imageFrom (bs : List Byte) (a j : Nat) : (imageFrom a bs).read (a + j) = bs.getD j 0 := by
  induction bs generalizing a j with
  | nil => rfl
  | cons b bs ih =>
    cases j with
    | zero =>
      simp only [imageFrom]
      split
      · subst b; exact read_imageFrom_of_lt bs (Nat.lt_succ_self a)
      · exact if_pos rfl
    | succ j =>
      have tail : (imageFrom (a + 1) bs).read (a + (j + 1)) = bs.getD j 0 := by
        rw [← ih (a + 1) j, Nat.add_right_comm, Nat.add_assoc]
      simp only [imageFrom]
      split
      · exact tail
      · exact (if_neg (by omega)).trans tail

/-- Images that fit are loaded at index 0 of their segments, over the start state (R221). -/
theorem State.load_of_le (c : Config) {ci : List Byte} {di : Option (List Byte)} (hci : ci.length ≤ 65536)
    (hdi : (di.getD []).length ≤ 65536) :
    State.load c ci di = some { State.start c with code := imageFrom 0 ci, data := imageFrom 0 (di.getD []) } := by
  simp [State.load, loadSegment, hci, hdi]

/-- The core does not start with an image that is larger than its segment (R221). -/
theorem State.load_of_gt (c : Config) {ci : List Byte} {di : Option (List Byte)}
    (h : ci.length > 65536 ∨ (di.getD []).length > 65536) : State.load c ci di = none := by
  have hnone : loadSegment ci = none ∨ loadSegment (di.getD []) = none :=
    h.imp (fun h => if_neg (by omega)) (fun h => if_neg (by omega))
  obtain h | h := hnone
  · rw [State.load, h]
  · rw [State.load, h]; cases loadSegment ci <;> rfl

/-- rsp and pc start at 0 under both reset policies (R37). -/
theorem RegFile.rsp_start (p : ResetRegs) : (RegFile.start p).rsp = 0 := by cases p <;> rfl

theorem RegFile.rpp_start (p : ResetRegs) : (RegFile.start p).rpp = 0 := by cases p <;> rfl

/-- Under `RESET_REGS = Zero` every register starts at 0 (R37). -/
theorem RegFile.get_start_zero (j : RegIdx) : (RegFile.start .zero).get j = 0 := by fin_cases j <;> rfl

/-- Settles O13: what the loaded state reads as, field by field. -/
theorem engineStartState : Obligations.EngineStartState := by
  refine fun c ci di => ⟨fun hci hdi => ⟨_, State.load_of_le c hci hdi, rfl, ?_⟩, State.load_of_gt c⟩
  refine ⟨RegFile.rsp_start c.resetRegs, RegFile.rpp_start c.resetRegs, fun hz j => ?_, fun a => ?_, fun a => ?_,
    rfl, rfl⟩
  · exact (congrArg (fun p => (RegFile.start p).get j) hz).trans (RegFile.get_start_zero j)
  · simpa only [Nat.zero_add] using read_imageFrom ci 0 a
  · simpa only [Nat.zero_add] using read_imageFrom (di.getD []) 0 a

/-- Settles O14: `State.reset` is the start state under the defaults, with both segments empty. -/
theorem resetState : Obligations.ResetState :=
  ⟨RegFile.get_start_zero, fun _ => rfl, fun _ => rfl, rfl, rfl, rfl, rfl⟩

/-- Settles O16: an empty segment is in canonical form, and the machine's configuration is admissible. -/
theorem invariantHoldsAtReset : Obligations.InvariantHoldsAtReset := ⟨rfl, rfl, Config.machine_wf⟩

end Sys2Proof.Machine
end

section
/-! PROOFS. The family of spec/10_state.md, part 2: what no instruction depends on. A change of the state that the named
operations do not see commutes with every instruction; the output stream, rint, and the flag bits 15-4 are such changes
(R30, R33, R36). -/

namespace Sys2Proof.Machine

open Sys2Proof.Rules

/-! ## Changes that the named operations do not see -/

/-- The change `f` touches only registers in `H` (rint and flags at most), IE and the output, in such a way that it
commutes with every write of the named operations, but for writes of `H` through a register field. -/
structure Unseen (H : RegIdx → Prop) (f : State → State) : Prop where
  six_le : ∀ r, H r → 6 ≤ r.val
  x : ∀ s r, ¬ H r → (f s).x r = s.x r
  flag : ∀ s b, b ≠ .ie → (f s).flag b = s.flag b
  cfg : ∀ s, (f s).cfg = s.cfg
  seg : ∀ s g, (f s).seg g = s.seg g
  status : ∀ s, (f s).status = s.status
  setX : ∀ s r v, ¬ H r → (f s).setX r v = f (s.setX r v)
  setFlag : ∀ s b v, b ≠ .ie → (f s).setFlag b v = f (s.setFlag b v)
  setSeg : ∀ s g m, (f s).setSeg g m = f (s.setSeg g m)
  setStatus : ∀ s st, { f s with status := st } = f { s with status := st }
  out : ∀ s bs, (f s).out bs = f (s.out bs)

/-- A change of the state, made to the state a meaning answers. -/
def mapNext (f : State → State) : Result → Result
  | .next t => .next (f t)
  | .fault r => .fault r
  | .refused r => .refused r

namespace Unseen

variable {H : RegIdx → Prop} {f : State → State}

/-! ### What `namesReg` says of an instruction's fields -/

/-- The one register field of an instruction is not hidden. -/
theorem not_hidden_of_named {w : Width} {r1 : RegIdx} (hn : ∀ r, H r → (w == .w16 && r1 == r) = false) :
    w = .w16 → ¬ H r1 := fun hw hH => by simpa [hw] using hn r1 hH

/-- The two register fields of an instruction are not hidden. -/
theorem not_hidden_of_named_two {w : Width} {r1 r2 : RegIdx}
    (hn : ∀ r, H r → (w == .w16 && (r1 == r || r2 == r)) = false) : (w = .w16 → ¬ H r1) ∧ (w = .w16 → ¬ H r2) :=
  ⟨fun hw hH => by simpa [hw] using hn r1 hH, fun hw hH => by simpa [hw] using hn r2 hH⟩

/-- The register field of a transfer and its 16-bit address field are not hidden. -/
theorem not_hidden_of_named_addr {w : Width} {r1 : RegIdx} {o : Src}
    (hn : ∀ r, H r → ((w == .w16 && r1 == r) || srcNames r o) = false) :
    (w = .w16 → ¬ H r1) ∧ ∀ r, H r → srcNames r o = false :=
  ⟨not_hidden_of_named fun r hH => (Bool.or_eq_false_iff.1 (hn r hH)).1,
    fun r hH => (Bool.or_eq_false_iff.1 (hn r hH)).2⟩

variable (hf : Unseen H f)
include hf

/-! ### Registers -/

/-- An index below 6 is not hidden. -/
theorem not_hidden {r : RegIdx} (h : r.val < 6) : ¬ H r := fun hr => absurd (hf.six_le r hr) (by omega)

theorem x8 (s : State) (r : RegIdx) : (f s).x8 r = s.x8 r := by
  unfold State.x8
  split
  · rw [hf.x s r (hf.not_hidden (by omega))]
  · rw [hf.x s (r - 4) (hf.not_hidden (by omega))]

theorem setX8 (s : State) (r : RegIdx) (v : Byte) : (f s).setX8 r v = f (s.setX8 r v) := by
  unfold State.setX8
  split
  · have hr : ¬ H r := hf.not_hidden (by omega)
    rw [hf.x s r hr, hf.setX s r _ hr]
  · have hr : ¬ H (r - 4) := hf.not_hidden (by omega)
    rw [hf.x s _ hr, hf.setX s _ _ hr]

theorem xw (s : State) {w : Width} {r : RegIdx} (hr : w = .w16 → ¬ H r) : (f s).xw w r = s.xw w r := by
  cases w with
  | w8 => exact hf.x8 s r
  | w16 => exact hf.x s r (hr rfl)

theorem setXw (s : State) {w : Width} {r : RegIdx} (hr : w = .w16 → ¬ H r) (v : BitVec w.bits) :
    (f s).setXw w r v = f (s.setXw w r v) := by
  cases w with
  | w8 => exact hf.setX8 s r v
  | w16 => exact hf.setX s r v (hr rfl)

theorem pc (s : State) : (f s).pc = s.pc := hf.x s _ (hf.not_hidden (by decide))

theorem setPc (s : State) (t : Word) : (f s).setPc t = f (s.setPc t) := hf.setX s _ t (hf.not_hidden (by decide))

theorem advance (s : State) (n : Nat) : (f s).advance n = f (s.advance n) := by
  rw [State.advance, hf.pc, hf.setPc, State.advance]

theorem rsp (s : State) : (f s).rsp = s.rsp := hf.x s _ (hf.not_hidden (by decide))

theorem setRsp (s : State) (v : Word) : (f s).setRsp v = f (s.setRsp v) := hf.setX s _ v (hf.not_hidden (by decide))

/-! ### Memory and the stack -/

theorem code (s : State) : (f s).code = s.code := hf.seg s .code

theorem data (s : State) : (f s).data = s.data := hf.seg s .data

theorem memRead (s : State) (g : Segment) (a : Word) (w : Width) : (f s).memRead g a w = s.memRead g a w := by
  rw [State.memRead, hf.seg, hf.cfg, State.memRead]

theorem memWrite (s : State) (g : Segment) (a : Word) (w : Width) (v : BitVec w.bits) :
    (f s).memWrite g a w v = (s.memWrite g a w v).map f := by
  simp only [State.memWrite, hf.seg, hf.cfg, hf.setSeg]
  split <;> rfl

theorem push (s : State) (w : Width) (v : BitVec w.bits) : (f s).push w v = (s.push w v).map f := by
  have store : ∀ m, ({ f s with data := m } : State) = f { s with data := m } := hf.setSeg s .data
  simp only [State.push, hf.rsp, hf.data, store, hf.setRsp]
  split <;> rfl

theorem canPull (s : State) (w : Width) : (f s).canPull w = s.canPull w := by
  rw [State.canPull, hf.rsp, State.canPull]

theorem popped (s : State) (w : Width) : (f s).popped w = f (s.popped w) := by
  rw [State.popped, hf.rsp, hf.setRsp, State.popped]

theorem top (s : State) (w : Width) : (f s).top w = s.top w := by
  rw [State.top, hf.popped, hf.rsp, hf.data, State.top]

theorem cString (s : State) (a : Word) : (f s).cString a = s.cString a := by
  rw [State.cString, hf.data, State.cString]

/-! ### Faults -/

theorem takeFault (s : State) (k : FaultKind) : (f s).takeFault k = f (s.takeFault k) :=
  (hf.setStatus s _).trans (by rw [hf.pc, hf.code, State.takeFault])

theorem raise (k : FaultKind) (s : State) : raise k (f s) = mapNext f (raise k s) :=
  congrArg Host.Outcome.next (hf.takeFault s k)

theorem orRaise (k : FaultKind) (s : State) (o : Option State) :
    orRaise k (f s) (o.map f) = mapNext f (orRaise k s o) := by
  cases o with
  | none => exact hf.raise k s
  | some t => rfl

/-! ### Operands -/

/-- The registers that an operand of width `w` names are not hidden. -/
theorem src2 {w : Width} {o : Src} (ho : ∀ r, H r → w = .w16 → srcNames r o = false) (s : State) :
    src2 w o (f s) = ((src2 w o s).1, f (src2 w o s).2) := by
  cases o with
  | imm v => exact congrArg _ (hf.advance s w.bytes)
  | reg r =>
    have hr : w = .w16 → ¬ H r := fun hw hH => by simpa [srcNames] using ho r hH hw
    exact congrArg (·, f s) (hf.xw s hr)

theorem addr2 {o : Src} (ho : ∀ r, H r → srcNames r o = false) (s : State) :
    addr2 o (f s) = ((addr2 o s).1, f (addr2 o s).2) := by
  cases o with
  | imm v => exact congrArg _ (hf.advance s 2)
  | reg r => exact congrArg (·, f s) (hf.x s r fun hH => by simpa [srcNames] using ho r hH)

theorem tgt {o : Src} (ho : ∀ r, H r → srcNames r o = false) (s : State) :
    tgt o (f s) = ((tgt o s).1, f (tgt o s).2) := by
  cases o with
  | imm v => exact congrArg _ (hf.advance s 2)
  | reg r => exact congrArg (·, f s) (hf.x s r fun hH => by simpa [srcNames] using ho r hH)

theorem opd1 (o : Src) (s : State) : opd1 o (f s) = ((opd1 o s).1, f (opd1 o s).2) := by
  cases o with
  | imm v => exact congrArg _ (hf.advance s 1)
  | reg r => exact congrArg (·, f s) (hf.x8 s r)

/-! ### The shapes of the meanings -/

/-- A meaning with operands `xw[r1]` and `Src2` commutes with `f` if what it does with the two values does. -/
theorem withSrc2 {w : Width} {r1 : RegIdx} {o : Src} {k : BitVec w.bits → BitVec w.bits → State → State}
    (hn : ∀ r, H r → (w == .w16 && (r1 == r || srcNames r o)) = false)
    (hk : (w = .w16 → ¬ H r1) → ∀ a b t, k a b (f t) = f (k a b t)) (s : State) :
    withSrc2 w r1 o (f s) k = mapNext f (withSrc2 w r1 o s k) := by
  simp only [Bool.and_eq_false_imp, beq_iff_eq, Bool.or_eq_false_iff, beq_eq_false_iff_ne] at hn
  have hr : w = .w16 → ¬ H r1 := fun hw hH => (hn r1 hH hw).1 rfl
  have ho : ∀ r, H r → w = .w16 → srcNames r o = false := fun r hH hw => (hn r hH hw).2
  simp only [Machine.withSrc2, hf.advance, hf.src2 ho, hf.xw _ hr, hk hr, mapNext]

/-- A meaning with the one operand `xw[r1]` commutes with `f` if what it does with the value does. -/
theorem withReg {w : Width} {r1 : RegIdx} {k : BitVec w.bits → State → State} (hr : w = .w16 → ¬ H r1)
    (hk : ∀ a t, k a (f t) = f (k a t)) (s : State) : withReg w r1 (f s) k = mapNext f (withReg w r1 s k) := by
  simp only [Machine.withReg, hf.advance, hf.xw _ hr, hk, mapNext]

theorem jumpIf {cond : State → Bool} {o : Src} (ho : ∀ r, H r → srcNames r o = false)
    (hc : ∀ t, cond (f t) = cond t) (s : State) : jumpIf cond o (f s) = mapNext f (jumpIf cond o s) := by
  simp only [Machine.jumpIf, hf.advance, hf.tgt ho, hc, hf.setPc, mapNext]
  split <;> rfl

/-! ### Every instruction, and every step -/

/-- A change that the named operations do not see commutes with every instruction that names no hidden register. -/
theorem exec {i : Instr} (hn : ∀ r, H r → namesReg r i = false) (s : State) : exec i (f s) = mapNext f (exec i s) := by
  cases i with
  | add | sub | cmp | and | or | xor | set =>
    simp only [Machine.exec, execAdd, execSub, execCmp, execAnd, execOr, execXor, execSet]
    exact hf.withSrc2 hn (fun hr a b t => by simp [hf.setXw _ hr, hf.setFlag]) s
  | inc | dec | not | shl | shr =>
    have hr := not_hidden_of_named hn
    simp only [Machine.exec, execInc, execDec, execNot, execShl, execShr]
    exact hf.withReg hr (fun a t => by simp [hf.setXw _ hr, hf.setFlag]) s
  | mul w r1 r2 =>
    obtain ⟨hr1, hr2⟩ := not_hidden_of_named_two hn
    simp only [Machine.exec, execMul]
    exact hf.withReg hr1 (fun a t => by simp [hf.xw _ hr2, hf.setXw _ hr1, hf.setXw _ hr2, hf.setFlag]) s
  | div w r1 r2 =>
    obtain ⟨hr1, hr2⟩ := not_hidden_of_named_two hn
    simp only [Machine.exec, execDiv, hf.advance, hf.xw _ hr1, hf.xw _ hr2]
    split
    · exact hf.raise _ s
    · simp [hf.setXw _ hr1, hf.setXw _ hr2, hf.setFlag, mapNext]
  | ld w r1 r2 =>
    obtain ⟨hr1, hr2⟩ := not_hidden_of_named_addr (o := .reg r2) hn
    have hr2 : ¬ H r2 := fun hH => by simpa [srcNames] using hr2 r2 hH
    simp only [Machine.exec, execLd, hf.advance, hf.x _ _ hr2, hf.memRead]
    rw [← hf.orRaise, Option.map_map]
    exact congrArg (fun g => Machine.orRaise _ _ (Option.map g _)) (funext fun v => hf.setXw _ hr1 v)
  | lp w r1 a =>
    obtain ⟨hr1, ho⟩ := not_hidden_of_named_addr hn
    simp only [Machine.exec, execLp, hf.advance, hf.addr2 ho, hf.memRead]
    rw [← hf.orRaise, Option.map_map]
    exact congrArg (fun g => Machine.orRaise _ _ (Option.map g _)) (funext fun v => hf.setXw _ hr1 v)
  | sd w r1 a =>
    obtain ⟨hr1, ho⟩ := not_hidden_of_named_addr hn
    simp only [Machine.exec, execSd, hf.advance, hf.addr2 ho, hf.xw _ hr1, hf.memWrite, hf.orRaise]
  | sp w r1 a =>
    obtain ⟨hr1, ho⟩ := not_hidden_of_named_addr hn
    simp only [Machine.exec, execSp, hf.advance, hf.addr2 ho, hf.xw _ hr1, hf.memWrite, hf.orRaise]
  | push w r1 =>
    have hr := not_hidden_of_named hn
    simp only [Machine.exec, execPush, hf.advance, hf.xw _ hr, hf.push, hf.orRaise]
  | pull w r1 =>
    have hr := not_hidden_of_named hn
    simp only [Machine.exec, execPull, hf.advance, hf.canPull, hf.popped, hf.top, hf.setXw _ hr]
    split
    · rfl
    · exact hf.raise _ s
  | jmp | jiz | jnz | jin | jnn | jic | jnc | jio | jno =>
    simp only [Machine.exec, execJmp, execJiz, execJnz, execJin, execJnn, execJic, execJnc, execJio, execJno]
    exact hf.jumpIf hn (fun t => by simp [hf.flag]) s
  | call o =>
    simp only [Machine.exec, execCall, hf.advance, hf.tgt hn, hf.pc, hf.push]
    rw [← hf.orRaise, Option.map_map, Option.map_map]
    exact congrArg (fun g => Machine.orRaise _ _ (Option.map g _)) (funext fun u => hf.setPc u _)
  | retf =>
    simp only [Machine.exec, execRetf, hf.advance, hf.canPull, hf.popped, hf.top, hf.setPc]
    split
    · rfl
    · exact hf.raise _ s
  | cfl | czf | cnf | ccf | cof | szf | snf | scf | sof =>
    refine congrArg Host.Outcome.next ?_
    simp [hf.advance, hf.setFlag]
  | wr w o =>
    cases w with
    | w8 => simp only [Machine.exec, execWr, hf.advance, hf.opd1, hf.out, mapNext]
    | w16 =>
      have ho : ∀ r, H r → srcNames r o = false := hn
      simp only [Machine.exec, execWr, hf.advance, hf.tgt ho, hf.cString]
      rw [← hf.orRaise, Option.map_map]
      exact congrArg (fun g => Machine.orRaise _ _ (Option.map g _)) (funext fun bs => hf.out _ _)
  | rd | int | halt | nop => exact congrArg Host.Outcome.next (hf.advance s 2)
  | stop => exact congrArg Host.Outcome.next ((congrArg State.halt (hf.advance s 2)).trans (hf.setStatus _ _))

theorem exec_next {i : Instr} (hn : ∀ r, H r → namesReg r i = false) {s t : State}
    (h : Machine.exec i s = .next t) : Machine.exec i (f s) = .next (f t) := by
  rw [hf.exec hn, h]; rfl

theorem fetchWindow (s : State) : (f s).fetchWindow = s.fetchWindow := by
  rw [State.fetchWindow, hf.pc, hf.code, State.fetchWindow]

/-- A change that the named operations do not see, and that hides no register, commutes with every step. -/
theorem step (hH : ∀ r, ¬ H r) (s : State) : step (f s) = mapNext f (step s) := by
  unfold Machine.step
  rw [hf.status, hf.cfg, hf.fetchWindow]
  split
  · rfl
  · rfl
  · split
    · exact hf.exec (fun r hr => absurd hr (hH r)) s
    · rename_i e _
      cases e with
      | truncated => exact hf.raise _ s
      | unknownOpcode op =>
        simp only [fetchFailed, unknownOpcode, hf.cfg]
        split
        · exact hf.raise _ s
        · exact congrArg Host.Outcome.next (hf.advance s 2)

end Unseen
end Sys2Proof.Machine
end

section
/-! PROOFS. The family of spec/10_state.md, part 3: rint, the flag bits 15-4 and the output stream are not seen by the
named operations, and so affect nothing else (R30, R33, R36). -/

namespace Sys2Proof.Machine

open Sys2Proof.Rules

/-! ## rint -/

/-- A read of another cell does not see rint. -/
theorem x_withRint (s : State) (v : Word) {r : RegIdx} (h : r ≠ RegIdx.rint) : (withRint s v).x r = s.x r := by
  match r with
  | 6 => exact absurd rfl h
  | 0 | 1 | 2 | 3 | 4 | 5 | 7 => rfl

/-- A write of another cell commutes with a write of rint. -/
theorem setX_withRint (s : State) (v u : Word) {r : RegIdx} (h : r ≠ RegIdx.rint) :
    (withRint s v).setX r u = withRint (s.setX r u) v := by
  match r with
  | 6 => exact absurd rfl h
  | 0 | 1 | 2 | 3 | 4 | 5 | 7 => rfl

/-- rint is seen only through index 6 (R30). -/
theorem unseen_withRint (v : Word) : Unseen (· = RegIdx.rint) (withRint · v) where
  six_le := by rintro _ rfl; decide
  x s _ h := x_withRint s v h
  flag _ _ _ := rfl
  cfg _ := rfl
  seg _ g := by cases g <;> rfl
  status _ := rfl
  setX s _ u h := setX_withRint s v u h
  setFlag _ _ _ _ := rfl
  setSeg _ g _ := by cases g <;> rfl
  setStatus _ _ := rfl
  out _ _ := rfl

/-- Settles O22: the instruction commutes with every change of rint, and so with the change to the value rint has, which
is none: rint keeps it. -/
theorem rintIsReachedOnlyByItsIndex : Obligations.RintIsReachedOnlyByItsIndex := by
  intro i s t v hn h
  have commutes : ∀ u, exec i (withRint s u) = .next (withRint t u) := fun u =>
    (unseen_withRint u).exec_next (by rintro _ rfl; exact hn) h
  have ht : t = withRint t (s.x RegIdx.rint) := Host.Outcome.next.inj (h.symm.trans (commutes (s.x RegIdx.rint)))
  exact ⟨congrArg (·.x RegIdx.rint) ht, commutes v⟩

/-! ## IE and the reserved flag bits -/

/-- A read of another cell does not see the flags. -/
theorem x_flipFlags (s : State) (m : Word) {r : RegIdx} (h : r ≠ RegIdx.flags) : (flipFlags s m).x r = s.x r := by
  match r with
  | 7 => exact absurd rfl h
  | 0 | 1 | 2 | 3 | 4 | 5 | 6 => rfl

/-- A write of another cell commutes with a flip of flag bits. -/
theorem setX_flipFlags (s : State) (m u : Word) {r : RegIdx} (h : r ≠ RegIdx.flags) :
    (flipFlags s m).setX r u = flipFlags (s.setX r u) m := by
  match r with
  | 7 => exact absurd rfl h
  | 0 | 1 | 2 | 3 | 4 | 5 | 6 => rfl

/-- The places of Z, N, C and O are below 4 (R31, D4). -/
theorem Flag.bit_lt_four {b : Flag} (h : b ≠ .ie) : b.bit < 4 := by
  cases b with
  | ie => exact absurd rfl h
  | z | n | c | o => decide

/-- The assignment of a bit commutes with a flip of others. -/
theorem putBit_xor (v m : Word) (k : Nat) (b : Bool) (h : m.getLsbD k = false) :
    putBit (v ^^^ m) k b = putBit v k b ^^^ m := by
  refine BitVec.eq_of_getLsbD_eq fun n hn => ?_
  rw [BitVec.getLsbD_xor, getLsbD_putBit _ _ _ _ hn, getLsbD_putBit _ _ _ _ hn, BitVec.getLsbD_xor]
  split
  · subst n; simp [h]
  · rfl

/-- The bits 15-4 of flags are seen only through index 7 (R33, D5). -/
theorem unseen_flipFlags {m : Word} (hm : ∀ k, k < 4 → m.getLsbD k = false) :
    Unseen (· = RegIdx.flags) (flipFlags · m) where
  six_le := by rintro _ rfl; decide
  x s _ h := x_flipFlags s m h
  flag s b hb := by
    have hbit : m.getLsbD b.bit = false := hm _ (Flag.bit_lt_four hb)
    calc (s.regs.flags ^^^ m).getLsbD b.bit
        = (s.regs.flags.getLsbD b.bit ^^ m.getLsbD b.bit) := BitVec.getLsbD_xor
      _ = s.regs.flags.getLsbD b.bit := by rw [hbit, Bool.xor_false]
  cfg _ := rfl
  seg _ g := by cases g <;> rfl
  status _ := rfl
  setX s _ u h := setX_flipFlags s m u h
  setFlag s b v hb :=
    congrArg (fun u => s.setX RegIdx.flags u) (putBit_xor s.regs.flags m b.bit v (hm _ (Flag.bit_lt_four hb)))
  setSeg _ g _ := by cases g <;> rfl
  setStatus _ _ := rfl
  out _ _ := rfl

/-- Settles O23: a flip of bits 15-4 commutes with the instruction. -/
theorem interruptEnableAndReservedBitsAffectNothing : Obligations.InterruptEnableAndReservedBitsAffectNothing :=
  fun _ _ _ _ hn hm h => (unseen_flipFlags hm).exec_next (by rintro _ rfl; exact hn) h

/-! ## The output stream -/

/-- The state with bytes before everything it has output: what an earlier part of the run would have left. -/
def prependOutput (bs : List Byte) (s : State) : State := withOutput s (bs ++ s.output)

/-- No operation reads the output stream, and the one that appends to it does not see what stands before (R36). -/
theorem unseen_prependOutput (bs : List Byte) : Unseen (fun _ => False) (prependOutput bs) where
  six_le _ h := h.elim
  x _ _ _ := rfl
  flag _ _ _ := rfl
  cfg _ := rfl
  seg _ g := by cases g <;> rfl
  status _ := rfl
  setX _ _ _ _ := rfl
  setFlag _ _ _ _ := rfl
  setSeg _ g _ := by cases g <;> rfl
  setStatus _ _ := rfl
  out s cs := congrArg (withOutput s) (List.append_assoc bs s.output cs)

/-- Every output stream is what the empty one becomes with bytes before it. -/
theorem prependOutput_withOutput_nil (s : State) (o : List Byte) : prependOutput o (withOutput s []) = withOutput s o :=
  congrArg (withOutput s) (List.append_nil o)

/-- Only WR appends to the output (R36). -/
theorem step_output {s t : State} (h : step s = .next t) :
    t.output = s.output ∨ ∃ w o, Fetches s (.wr w o) := by
  obtain ⟨-, ⟨i, rest, hd, hexec⟩ | ⟨-, rfl⟩ | ⟨_, -, ⟨-, rfl⟩ | ⟨-, rfl⟩⟩⟩ := step_cases h
  · obtain ⟨k, rfl⟩ | hdone := exec_cases hexec
    · exact .inl rfl
    · obtain ⟨bs, hout, hbs⟩ := hdone.output
      by_cases hm : i.mnemonic = .wr
      · cases i <;> cases hm
        exact .inr ⟨_, _, rest, hd⟩
      · exact .inl (by rw [hout, hbs hm, List.append_nil])
  all_goals exact .inl rfl

/-- Settles O20: a step from `s` is the step from `s` with an empty output stream, `s.output` put before what that
outputs; and so with any other stream. -/
theorem outputIsAppendOnlyAndNeverRead : Obligations.OutputIsAppendOnlyAndNeverRead := by
  intro s t h
  have running := (step_cases h).1
  obtain ⟨t0, h0⟩ : ∃ t0, step (withOutput s []) = .next t0 := (stepsAreTakenExactlyWhileRunning _).2 running
  have commutes : ∀ o, step (withOutput s o) = .next (prependOutput o t0) := fun o => by
    rw [← prependOutput_withOutput_nil, (unseen_prependOutput o).step (fun _ => id), h0, mapNext]
  obtain rfl : t = prependOutput s.output t0 := Host.Outcome.next.inj (h.symm.trans (commutes s.output))
  refine ⟨t0.output, rfl, fun hne => (step_output h).resolve_left fun he => hne ?_, commutes⟩
  exact List.self_eq_append_right.1 he.symm

end Sys2Proof.Machine
end

section
/-! PROOFS. The family of spec/10_state.md, part 4: what a part of the register file is after an instruction that does
not write it: what the fetch left there. The part is the pc in one case, one bit of flags in the other (R27, R32,
R33). -/

namespace Sys2Proof.Machine

open Sys2Proof.Rules

/-! ## What an instruction's length advances -/

theorem State.advance_zero (s : State) : s.advance 0 = s := by
  simp [State.advance, State.pc, State.setPc, State.setX, State.x, RegFile.get, RegFile.put]

/-- An operand advances pc past its immediate bytes, in whichever byte order (R76). -/
theorem src2_snd (ord : ByteOrder) (w : Width) (o : Src) (s : State) :
    (src2 w o s).2 = s.advance (encodeSrc ord w o).length := by
  cases o with
  | imm v => cases w <;> rfl
  | reg r => cases w <;> exact s.advance_zero.symm

theorem addr2_snd (ord : ByteOrder) (o : Src) (s : State) :
    (addr2 o s).2 = s.advance (encodeSrc ord .w16 o).length := by
  cases o with
  | imm v => rfl
  | reg r => exact s.advance_zero.symm

theorem tgt_snd (ord : ByteOrder) (o : Src) (s : State) : (tgt o s).2 = s.advance (encodeSrc ord .w16 o).length := by
  cases o with
  | imm v => rfl
  | reg r => exact s.advance_zero.symm

theorem opd1_snd (ord : ByteOrder) (o : Src) (s : State) : (opd1 o s).2 = s.advance (encodeSrc ord .w8 o).length := by
  cases o with
  | imm v => rfl
  | reg r => exact s.advance_zero.symm

theorem State.regs_out (s : State) (bs : List Byte) : (s.out bs).regs = s.regs := rfl

/-- The state after the word and the immediate of an instruction have been fetched: pc is past both (R26, R76). -/
def State.past (s : State) (i : Instr) : State := s.advance (encode s.cfg i).length

/-- The advance past the word, and then past the immediate (R75). -/
theorem State.past_eq (s : State) (i : Instr) :
    s.past i = (s.advance 2).advance (i.immBytes s.cfg.dataByteOrder).length := by
  rw [State.advance_advance, State.past, encode, List.length_cons, List.length_cons, Nat.add_assoc, Nat.add_comm]

/-- Without immediate bytes there is only the +2 advance (R26). -/
theorem State.past_of_no_imm {s : State} {i : Instr} (h : i.immBytes s.cfg.dataByteOrder = []) :
    s.past i = s.advance 2 := by
  rw [State.past_eq, h, List.length_nil, State.advance_zero]

/-! ## A part of the register file -/

/-- The part `obs` of the register file changes only by a write of a cell in `W`, which holds none of r0-r3 and rsp, or
by an assignment of a flag in `F`. -/
structure Observes {α : Type} (W : RegIdx → Prop) (F : Flag → Prop) (obs : RegFile → α) : Prop where
  five_le : ∀ r, W r → 5 ≤ r.val
  setX : ∀ (s : State) r v, ¬ W r → obs (s.setX r v).regs = obs s.regs
  setFlag : ∀ (s : State) b v, ¬ F b → obs (s.setFlag b v).regs = obs s.regs

namespace Observes

/-! ### What `writesReg` says of an instruction's fields -/

variable {α : Type} {W : RegIdx → Prop} {F : Flag → Prop} {obs : RegFile → α}

theorem not_observed_of_written {w : Width} {r1 : RegIdx} (hn : ∀ r, W r → (w == .w16 && r1 == r) = false) :
    w = .w16 → ¬ W r1 := fun hw hW => by simpa [hw] using hn r1 hW

theorem not_observed_of_written_two {w : Width} {r1 r2 : RegIdx}
    (hn : ∀ r, W r → (w == .w16 && (r1 == r || r2 == r)) = false) : (w = .w16 → ¬ W r1) ∧ (w = .w16 → ¬ W r2) :=
  ⟨fun hw hW => by simpa [hw] using hn r1 hW, fun hw hW => by simpa [hw] using hn r2 hW⟩

variable (ho : Observes W F obs)
include ho

/-! ### The named operations -/

theorem setX8 (s : State) (r : RegIdx) (v : Byte) : obs (s.setX8 r v).regs = obs s.regs := by
  unfold State.setX8
  split
  · exact ho.setX s r _ fun hW => absurd (ho.five_le r hW) (by omega)
  · exact ho.setX s (r - 4) _ fun hW => absurd (ho.five_le _ hW) (by omega)

theorem setXw (s : State) {w : Width} {r : RegIdx} (hr : w = .w16 → ¬ W r) (v : BitVec w.bits) :
    obs (s.setXw w r v).regs = obs s.regs := by
  cases w with
  | w8 => exact ho.setX8 s r v
  | w16 => exact ho.setX s r v (hr rfl)

theorem setRsp (s : State) (v : Word) : obs (s.setRsp v).regs = obs s.regs :=
  ho.setX s _ v fun hW => absurd (ho.five_le _ hW) (by decide)

theorem popped (s : State) (w : Width) : obs (s.popped w).regs = obs s.regs := ho.setRsp s _

/-! ### Every instruction -/

/-- An instruction faults, or it leaves the observed part as the fetch left it, if it writes none of it: through a
register field, by a flag rule, or as a jump. -/
theorem exec {i : Instr} {s t : State} (hW : ∀ r, W r → writesReg r i = false)
    (hF : ∀ b, F b → i.mnemonic ∉ flagWriters b.bit) (hC : W RegIdx.rpp → i.mnemonic ∉ controlFlow)
    (h : exec i s = .next t) : (∃ k, t = s.takeFault k) ∨ obs t.regs = obs (s.past i).regs := by
  have hflag : ∀ b, i.mnemonic ∈ flagWriters b.bit → ¬ F b := fun b hb hFb => hF b hFb hb
  have hpc : i.mnemonic ∈ controlFlow → ∀ (u : State) v, obs (u.setPc v).regs = obs u.regs :=
    fun hi u v => ho.setX u _ v fun hWp => hC hWp hi
  cases i with
  | add | sub | and | or | xor | set =>
    cases h
    have hr := not_observed_of_written hW
    simp only [Instr.mnemonic] at hflag
    right
    rw [State.past_eq]
    simp [ho.setFlag, hflag, flagWriters, Flag.bit, ho.setXw _ hr, src2_snd s.cfg.dataByteOrder, Instr.immBytes]
  | cmp =>
    cases h
    simp only [Instr.mnemonic] at hflag
    right
    rw [State.past_eq]
    simp [ho.setFlag, hflag, flagWriters, Flag.bit, src2_snd s.cfg.dataByteOrder, Instr.immBytes]
  | inc | dec | not | shl | shr =>
    cases h
    have hr := not_observed_of_written hW
    simp only [Instr.mnemonic] at hflag
    right
    rw [State.past_of_no_imm rfl]
    simp [ho.setFlag, hflag, flagWriters, Flag.bit, ho.setXw _ hr]
  | mul w r1 r2 =>
    cases h
    obtain ⟨hr1, hr2⟩ := not_observed_of_written_two hW
    simp only [Instr.mnemonic] at hflag
    right
    rw [State.past_of_no_imm rfl]
    simp [ho.setFlag, hflag, flagWriters, Flag.bit, ho.setXw _ hr1, ho.setXw _ hr2]
  | div w r1 r2 =>
    obtain ⟨hr1, hr2⟩ := not_observed_of_written_two hW
    simp only [Instr.mnemonic] at hflag
    simp only [Machine.exec, execDiv] at h
    split at h
    · cases h; exact .inl ⟨_, rfl⟩
    · cases h
      right
      rw [State.past_of_no_imm rfl]
      simp [ho.setFlag, hflag, flagWriters, Flag.bit, ho.setXw _ hr1, ho.setXw _ hr2]
  | cfl | czf | cnf | ccf | cof | szf | snf | scf | sof =>
    cases h
    simp only [Instr.mnemonic] at hflag
    right
    rw [State.past_of_no_imm rfl]
    simp [ho.setFlag, hflag, flagWriters, Flag.bit]
  | rd | int | halt | nop | stop =>
    cases h
    exact .inr (congrArg (fun u => obs u.regs) (State.past_of_no_imm rfl).symm)
  | ld w r1 r2 =>
    obtain h | ⟨-, rfl⟩ := orRaise_eq_next h
    · obtain ⟨v, -, rfl⟩ := Option.map_eq_some_iff.1 h
      exact .inr (by rw [State.past_of_no_imm rfl, ho.setXw _ (not_observed_of_written hW)])
    · exact .inl ⟨_, rfl⟩
  | lp w r1 a =>
    obtain h | ⟨-, rfl⟩ := orRaise_eq_next h
    · obtain ⟨v, -, rfl⟩ := Option.map_eq_some_iff.1 h
      exact .inr (by rw [State.past_eq, ho.setXw _ (not_observed_of_written hW), addr2_snd s.cfg.dataByteOrder]; rfl)
    · exact .inl ⟨_, rfl⟩
  | sd w r1 a | sp w r1 a =>
    obtain h | ⟨-, rfl⟩ := orRaise_eq_next h
    · obtain ⟨-, rfl⟩ := State.memWrite_eq_some h
      exact .inr (by rw [State.past_eq, State.regs_setSeg, addr2_snd s.cfg.dataByteOrder]; rfl)
    · exact .inl ⟨_, rfl⟩
  | push w r1 =>
    obtain h | ⟨-, rfl⟩ := orRaise_eq_next h
    · obtain ⟨-, rfl⟩ := State.push_eq_some h
      exact .inr (by rw [State.past_of_no_imm rfl, ho.setRsp])
    · exact .inl ⟨_, rfl⟩
  | pull w r1 =>
    simp only [Machine.exec, execPull] at h
    split at h
    · cases h; exact .inr (by rw [State.past_of_no_imm rfl, ho.setXw _ (not_observed_of_written hW), ho.popped])
    · cases h; exact .inl ⟨_, rfl⟩
  | jmp | jiz | jnz | jin | jnn | jic | jnc | jio | jno =>
    cases h
    right
    rw [State.past_eq, tgt_snd s.cfg.dataByteOrder]
    split
    · exact hpc (by simp [Instr.mnemonic, controlFlow]) _ _
    · rfl
  | call o =>
    obtain h | ⟨-, rfl⟩ := orRaise_eq_next h
    · obtain ⟨u, hu, rfl⟩ := Option.map_eq_some_iff.1 h
      obtain ⟨-, rfl⟩ := State.push_eq_some hu
      right
      rw [State.past_eq, hpc (by simp [Instr.mnemonic, controlFlow]), ho.setRsp, tgt_snd s.cfg.dataByteOrder]
      rfl
    · exact .inl ⟨_, rfl⟩
  | retf =>
    simp only [Machine.exec, execRetf] at h
    split at h
    · cases h; exact .inr (by rw [State.past_of_no_imm rfl, hpc (by simp [Instr.mnemonic, controlFlow]), ho.popped])
    · cases h; exact .inl ⟨_, rfl⟩
  | wr w o =>
    cases w with
    | w8 =>
      cases h
      exact .inr (by rw [State.past_eq, State.regs_out, opd1_snd s.cfg.dataByteOrder]; rfl)
    | w16 =>
      obtain h | ⟨-, rfl⟩ := orRaise_eq_next h
      · obtain ⟨bs, -, rfl⟩ := Option.map_eq_some_iff.1 h
        exact .inr (by rw [State.past_eq, State.regs_out, tgt_snd s.cfg.dataByteOrder]; rfl)
      · exact .inl ⟨_, rfl⟩

end Observes

/-! ## The flags register -/

/-- One bit of flags is written through 16-bit index 7 or by an assignment of its own flag (R31, R32). -/
theorem observes_flagBit {k : Nat} (hk : k < 16) :
    Observes (· = RegIdx.flags) (·.bit = k) (fun r => r.flags.getLsbD k) where
  five_le := by rintro _ rfl; decide
  setX s r v h := congrArg (·.getLsbD k) ((State.x_setX s r RegIdx.flags v).trans (if_neg (Ne.symm h)))
  setFlag s b v h := (getLsbD_putBit (s.x RegIdx.flags) b.bit k v hk).trans (if_neg (Ne.symm h))

/-- Settles O18: neither the fetch nor a fault writes flags, and by `Observes.exec` nothing else does. -/
theorem flagsAreWrittenOnlyByTheirWriters : Obligations.FlagsAreWrittenOnlyByTheirWriters := by
  intro i s t k h hk hw hr
  obtain ⟨_, rfl⟩ | hobs := (observes_flagBit hk).exec (by rintro _ rfl; exact hr) (by rintro _ rfl; exact hw)
    (fun hne => absurd hne (by decide)) h
  · rfl
  · exact hobs

/-! ## The program counter -/

/-- pc is written through 16-bit index 5 and by no flag assignment (R25). -/
theorem observes_pc : Observes (· = RegIdx.rpp) (fun _ => False) RegFile.rpp where
  five_le := by rintro _ rfl; decide
  setX s r v h := (State.x_setX s r RegIdx.rpp v).trans (if_neg (Ne.symm h))
  setFlag _ _ _ _ := rfl

/-- Settles O19: pc is what the fetch of the word and the immediate left. -/
theorem sequentialInstructionsAdvancePc : Obligations.SequentialInstructionsAdvancePc := by
  intro i s t _ h hnf hc hr
  obtain ⟨k, rfl⟩ | hobs := observes_pc.exec (by rintro _ rfl; exact hr) (fun _ => False.elim) (fun _ => hc) h
  · exact absurd rfl (hnf k s.pc (s.code.read s.pc.toNat))
  · exact hobs

end Sys2Proof.Machine
end

section
/-! PROOFS. The family of spec/10_state.md, part 5: the step from a state whose CODE holds an instruction's canonical
bytes at pc (R26, R76), and the register view of each width (R22, R24). -/

namespace Sys2Proof

/-! ## Decoding what the encoder writes -/

/-- The immediate's value, 0 where the operand is a register: what the decoder reads for it (R76). -/
def Src.immediate : Src → Word
  | .imm v => v
  | .reg _ => 0

@[simp] theorem specW_specTwo (w : Width) (r1 : RegIdx) (o : Src) : specW (specTwo w r1 o) = w := by
  cases o <;> simp [specTwo]
@[simp] theorem specR1_specTwo (w : Width) (r1 : RegIdx) (o : Src) : specR1 (specTwo w r1 o) = r1 := by
  cases o <;> simp [specTwo]
@[simp] theorem srcReg2_specTwo (w : Width) (r1 : RegIdx) (o : Src) : srcReg2 (specTwo w r1 o) o.immediate = o := by
  cases o <;> simp [specTwo, srcReg2, Src.immediate]
@[simp] theorem specW_specOne (w : Width) (o : Src) : specW (specOne w o) = w := by
  cases o <;> simp [specOne]
@[simp] theorem srcReg1_specOne (w : Width) (o : Src) : srcReg1 (specOne w o) o.immediate = o := by
  cases o <;> simp [specOne, srcReg1, Src.immediate]

/-- The two bytes of a word, put together in the order they were stored in (R51, R52). -/
@[simp] theorem joinBytes_firstByte_secondByte (ord : ByteOrder) (v : Word) :
    joinBytes ord (firstByte ord v) (secondByte ord v) = v := by
  cases ord <;> exact Machine.joinHiLo_hiByte_loByte v

/-- A byte held zero-extended is its low byte zero-extended (R77, R80). -/
theorem setWidth_loByte {v : Word} (h : v.toNat < 256) : (loByte v).setWidth 16 = v := by
  refine BitVec.eq_of_toNat_eq ?_
  simp only [loByte, BitVec.toNat_setWidth, BitVec.extractLsb'_toNat, Nat.shiftRight_zero]
  omega

/-- The decoder takes back the immediate bytes that the encoder writes for an operand (R76). -/
theorem takeImm_encodeSrc (ord : ByteOrder) {w : Width} {o : Src} (h : o.fits w = true) (rest : List Byte) :
    takeImm ord (encodeSrc ord w o).length (encodeSrc ord w o ++ rest) = some (o.immediate, rest) := by
  cases o with
  | reg r => cases w <;> rfl
  | imm v =>
    cases w with
    | w8 => simp [encodeSrc, takeImm, Src.immediate, setWidth_loByte (of_decide_eq_true h)]
    | w16 => simp [encodeSrc, takeImm, Src.immediate]

/-- A 16-bit operand always fits. -/
theorem Src.fits_w16 (o : Src) : o.fits .w16 = true := by cases o <;> rfl

/-- The encoder writes as many immediate bytes as the decoder takes (R74, R75). -/
theorem length_immBytes (i : Instr) : Laws.EncodingLength.Statement i := by
  intro ord
  cases i with
  | add | sub | cmp | and | or | xor | set => exact Laws.length_encodeSrc_two ..
  | sd | lp | sp => exact Laws.length_encodeSrc_addr ..
  | jmp | jiz | jnz | jin | jnn | jic | jnc | jio | jno | call => exact Laws.length_encodeSrc_target ..
  | wr => exact Laws.length_encodeSrc_wr ..
  | _ => rfl

/-- The decoder reads an instruction's fields and immediate back from its canonical encoding (R70, R74, R76). -/
theorem takeImm_buildInstr (ord : ByteOrder) {i : Instr} (h : i.wf = true) (rest : List Byte) :
    ∃ v, takeImm ord (i.immBytes ord).length (i.immBytes ord ++ rest) = some (v, rest) ∧
      buildInstr i.mnemonic i.spec v = i := by
  cases i with
  | add _ _ o | sub _ _ o | cmp _ _ o | and _ _ o | or _ _ o | xor _ _ o | set _ _ o | wr _ o =>
    exact ⟨o.immediate, takeImm_encodeSrc ord h rest, by simp [Instr.mnemonic, Instr.spec, buildInstr]⟩
  | sd _ _ o | lp _ _ o | sp _ _ o | jmp o | jiz o | jnz o | jin o | jnn o | jic o | jnc o | jio o | jno o | call o =>
    exact ⟨o.immediate, takeImm_encodeSrc ord o.fits_w16 rest, by simp [Instr.mnemonic, Instr.spec, buildInstr]⟩
  | inc | dec | mul | div | not | shl | shr | ld | push | pull =>
    exact ⟨0, rfl, by simp [Instr.mnemonic, Instr.spec, buildInstr]⟩
  | _ => exact ⟨0, rfl, rfl⟩

/-- The decoder takes the canonical encoding of a well-formed instruction back to it, whatever follows (R70, R72,
R76). -/
theorem decode_encode {c : Config} (hc : c.wf = true) {i : Instr} (hi : i.wf = true) (rest : List Byte) :
    decode c (encode c i ++ rest) = .ok (i, rest) := by
  obtain ⟨v, himm, hbuild⟩ := takeImm_buildInstr c.dataByteOrder hi rest
  rw [length_immBytes i] at himm
  rw [encode, List.cons_append, List.cons_append, decode_opcOf hc, himm]
  simp only [hbuild]

end Sys2Proof

namespace Sys2Proof.Machine

open Sys2Proof.Rules

/-! ## The step that runs encoded bytes -/

/-- A 2-byte read starts with the bytes that stand at its index (R53). -/
theorem Memory.pair_eq_append {m : Memory} {a : Word} {bs : List Byte} (hlen : bs.length ≤ 2)
    (htop : a.toNat + bs.length ≤ 65536) (hread : ∀ k b, bs[k]? = some b → m.read (a.toNat + k) = b) :
    ∃ rest, m.pair a = bs ++ rest := by
  match bs with
  | [] => exact ⟨_, rfl⟩
  | [b] =>
    have h0 : m.read a.toNat = b := hread 0 b rfl
    unfold Memory.pair
    split <;> exact ⟨_, by rw [h0]; rfl⟩
  | [b0, b1] =>
    have h0 : m.read a.toNat = b0 := hread 0 b0 rfl
    have h1 : m.read (a.toNat + 1) = b1 := hread 1 b1 rfl
    simp only [List.length_cons, List.length_nil] at htop
    exact ⟨[], by rw [Memory.pair, if_pos (by omega), h0, h1]; rfl⟩

/-- An instruction has at most two immediate bytes (R75). -/
theorem length_immBytes_le_two (ord : ByteOrder) (i : Instr) : (i.immBytes ord).length ≤ 2 := by
  have operand : ∀ w o, (encodeSrc ord w o).length ≤ 2 := by intro w o; cases w <;> cases o <;> simp [encodeSrc]
  cases i with
  | add | sub | cmp | and | or | xor | set | sd | lp | sp | wr => exact operand ..
  | jmp | jiz | jnz | jin | jnn | jic | jnc | jio | jno | call => exact operand ..
  | _ => exact Nat.zero_le 2

/-- Settles O6: the fetch window starts with the canonical encoding, which decodes to the instruction. -/
theorem stepRunsTheEncodedInstruction : Obligations.StepRunsTheEncodedInstruction := by
  intro s i hs hc hi hpc hop hspec htop himm
  obtain ⟨rest, hpair⟩ := Memory.pair_eq_append (length_immBytes_le_two s.cfg.dataByteOrder i) htop himm
  have hwindow : s.fetchWindow = encode s.cfg i ++ rest := by
    rw [State.fetchWindow, if_pos hpc, hpair, Memory.pair, if_pos hpc, hop, hspec]
    rfl
  simp only [step, hs, hwindow, decode_encode hc hi]

/-! ## The register view -/

/-- The cell that the 8-bit view writes at index 4-7 (R22). -/
theorem eq_sub_four_iff {i : RegIdx} (h : ¬ i.val < 4) (j : RegIdx) : j = i - 4 ↔ j.val + 4 = i.val := by
  revert i j; decide

/-- What a write of the view does to each 16-bit cell (R24). -/
theorem State.x_setXw (s : State) (w : Width) (i j : RegIdx) (v : BitVec w.bits) :
    (s.setXw w i v).x j = put w i v s.x j := by
  cases w with
  | w16 => exact State.x_setX s i j v
  | w8 =>
    refine (State.x_setX8 s i j v).trans ?_
    simp only [put]
    split
    · split
      · subst j; rfl
      · rfl
    · rename_i hi
      simp only [eq_sub_four_iff hi]
      split
      · rw [← (eq_sub_four_iff hi j).2 ‹_›]; rfl
      · rfl

/-- The 8-bit view reads back what was written, and its other entries are as before (R24). -/
theorem State.x8_setX8 (s : State) (i j : RegIdx) (v : Byte) :
    (s.setX8 i v).x8 j = if j = i then v else s.x8 j := by
  simp only [State.x8, State.x_setX8]
  by_cases hi : i.val < 4 <;> by_cases hj : j.val < 4
  · by_cases h : j = i <;> simp [hi, hj, h, loByte_joinHiLo]
  · have h : j ≠ i := by rintro rfl; exact hj hi
    by_cases hc : j - 4 = i <;> simp [hi, hj, h, hc, hiByte_joinHiLo]
  · have h : j ≠ i := by rintro rfl; exact hi hj
    by_cases hc : j = i - 4 <;> simp [hi, hj, h, hc, loByte_joinHiLo]
  · by_cases h : j = i <;> simp [hi, hj, h, hiByte_joinHiLo]

theorem State.xw_setXw (s : State) (w : Width) (i j : RegIdx) (v : BitVec w.bits) :
    (s.setXw w i v).xw w j = if j = i then v else s.xw w j := by
  cases w with
  | w8 => exact State.x8_setX8 s i j v
  | w16 => exact State.x_setX s i j v

/-- Settles O24: a write of the view, cell by cell and entry by entry. -/
theorem registerViewWritesChangeOnlyTheirBits : Obligations.RegisterViewWritesChangeOnlyTheirBits :=
  fun s w i v => ⟨(State.xw_setXw s w i i v).trans (if_pos rfl), fun j => State.x_setXw s w i j v,
    fun j hj => (State.xw_setXw s w i j v).trans (if_neg hj)⟩

end Sys2Proof.Machine
end

section
/-! PROOFS. The family of spec/20_memory.md: which instructions write a segment, what `MemRead` and `MemWrite` do byte by
byte, and that the fetch sees a store to CODE (R50-R53, R56, R62). -/

namespace Sys2Proof.Machine

open Sys2Proof.Rules

/-! ## Who writes a segment -/

/-- Settles O21: a fault writes no segment, and `Done` says which instructions write one. -/
theorem segmentsAreWrittenOnlyByTheirStores : Obligations.SegmentsAreWrittenOnlyByTheirStores := by
  intro i s t h
  obtain ⟨k, rfl⟩ | hdone := exec_cases h
  · exact ⟨fun _ _ => rfl, fun _ _ => rfl⟩
  · refine ⟨fun hsp a => by rw [hdone.code hsp], fun hstores a => ?_⟩
    simp only [List.mem_cons, List.not_mem_nil, or_false, not_or] at hstores
    obtain ⟨hsd, hpush, hcall⟩ := hstores
    rw [hdone.data hsd hpush hcall]

/-! ## W/8 bytes -/

/-- The bounds check, counting the W/8 bytes as R53 does. -/
theorem inBounds_iff_bits (a : Word) (w : Width) : inBounds a w = true ↔ a.toNat + w.bits / 8 - 1 ≤ 0xFFFF := by
  cases w <;> exact decide_eq_true_iff

/-- An access that passes index 0xFFFF is not in range (R53). -/
theorem not_inBounds_of_gt {a : Word} {w : Width} (h : a.toNat + w.bits / 8 - 1 > 0xFFFF) : ¬ inBounds a w = true :=
  fun hb => absurd ((inBounds_iff_bits a w).1 hb) (Nat.not_le.2 h)

/-- What a read gives, byte by byte, as a rule sees it (R51). -/
theorem Memory.readW_eq_bytesAt (o : ByteOrder) (m : Memory) (a : Word) (w : Width) :
    m.readW o a w = bytesAt o m.read a.toNat w := by
  cases w with
  | w8 => rfl
  | w16 => cases o <;> rfl

/-- What a write changes, byte by byte, as a rule sees it (R52). -/
theorem Memory.read_writeW (o : ByteOrder) (m : Memory) (a : Word) (w : Width) (v : BitVec w.bits) :
    (m.writeW o a w v).read = stored o a.toNat w v m.read := by
  funext j
  cases w with
  | w8 => exact Memory.read_write m a.toNat j v
  | w16 =>
    have two : ∀ b0 b1 : Byte, ((m.write a.toNat b0).write (a.toNat + 1) b1).read j =
        if j = a.toNat then b0 else if j = a.toNat + 1 then b1 else m.read j := by
      intro b0 b1
      rw [Memory.read_write, Memory.read_write]
      split
      · rw [if_neg (by omega)]
      · rfl
    cases o <;> exact two _ _

/-- The bytes of a value, read in the order they were stored in, are the value (R51, R52). -/
theorem bytesAt_stored (o : ByteOrder) (a : Nat) (w : Width) (v : BitVec w.bits) (m : Nat → Byte) :
    bytesAt o (stored o a w v m) a w = v := by
  cases w with
  | w8 => simp [bytesAt, stored]
  | w16 =>
    have halves : v.extractLsb' 8 8 ++ v.extractLsb' 0 8 = v := joinHiLo_hiByte_loByte v
    cases o <;> simpa [bytesAt, stored] using halves

/-! ## MemRead and MemWrite -/

theorem State.memRead_of_inBounds {s : State} {a : Word} {w : Width} (g : Segment) (hb : inBounds a w = true) :
    s.memRead g a w = some (bytesAt s.cfg.dataByteOrder (s.seg g).read a.toNat w) := by
  rw [State.memRead, if_pos hb, Memory.readW_eq_bytesAt]

theorem State.memWrite_of_inBounds {s : State} {a : Word} {w : Width} (g : Segment) (hb : inBounds a w = true)
    (v : BitVec w.bits) :
    s.memWrite g a w v = some (s.setSeg g ((s.seg g).writeW s.cfg.dataByteOrder a w v)) := if_pos hb

/-- Settles O25: the bounds check, and the bytes in order. -/
theorem memReadReturnsTheBytesInOrder : Obligations.MemReadReturnsTheBytesInOrder :=
  fun _ g a w => ⟨fun h => if_neg (not_inBounds_of_gt h),
    fun h => State.memRead_of_inBounds g ((inBounds_iff_bits a w).2 h)⟩

/-- Settles O26: one segment is replaced by what `Memory.read_writeW` says, and `bytesAt_stored` reads it back. -/
theorem memWriteChangesExactlyItsBytes : Obligations.MemWriteChangesExactlyItsBytes := by
  refine fun s g a w v => ⟨fun h => if_neg (not_inBounds_of_gt h), fun h => ?_⟩
  have hb : inBounds a w = true := (inBounds_iff_bits a w).2 h
  refine ⟨_, State.memWrite_of_inBounds g hb v, ?_, fun b => ?_, fun g' hg => State.seg_setSeg_ne s g g' _ hg,
    State.regs_setSeg .., State.status_setSeg .., State.output_setSeg .., State.cfg_setSeg ..⟩
  · rw [State.memRead_of_inBounds g hb, State.seg_setSeg, State.cfg_setSeg, Memory.read_writeW, bytesAt_stored]
  · rw [State.seg_setSeg, Memory.read_writeW]

/-! ## A store to CODE and the next fetch -/

/-- The register view after an advance of pc, as a rule sees it (R26). -/
theorem State.x_advance_eq_regsAt (s : State) (k : Nat) : (s.advance k).x = regsAt s k := by
  funext j
  rw [State.x_advance, regsAt]
  split
  · subst j; rfl
  · rfl

/-- The width-selected view, as a rule sees it (R22, R23). -/
theorem State.xw_eq_view (s : State) (w : Width) (r : RegIdx) : s.xw w r = view w s.x r := by cases w <;> rfl

/-- The value of an address operand, as a rule sees it (R78). -/
theorem addr2_fst (o : Src) (s : State) : (addr2 o s).1 = addrVal o s.x := by cases o <;> rfl

/-- An instruction that does not fault is done. -/
theorem done_of_notFaulted {i : Instr} {s t : State} (h : exec i s = .next t) (hnf : NotFaulted t) : Done i s t := by
  obtain ⟨k, rfl⟩ | hdone := exec_cases h
  · exact absurd rfl (hnf k s.pc (s.code.read s.pc.toNat))
  · exact hdone

/-- An SP that does not fault stores at an in-range address of CODE, after the word and the immediate (R133). -/
theorem exec_sp_of_notFaulted {w : Width} {r1 : RegIdx} {o : Src} {s t : State} (h : exec (.sp w r1 o) s = .next t)
    (hnf : NotFaulted t) :
    inBounds (addrVal o (regsAt s 2)) w = true ∧
      t.code.read =
        stored s.cfg.dataByteOrder (addrVal o (regsAt s 2)).toNat w (view w (regsAt s 2) r1) s.code.read := by
  obtain h | ⟨-, rfl⟩ := orRaise_eq_next h
  · obtain ⟨hb, ht⟩ := State.memWrite_eq_some h
    rw [addr2_fst, State.x_advance_eq_regsAt] at hb
    have hcode : t.code = (addr2 o (s.advance 2)).2.code.writeW (addr2 o (s.advance 2)).2.cfg.dataByteOrder
        (addr2 o (s.advance 2)).1 w ((s.advance 2).xw w r1) := congrArg State.code ht
    refine ⟨hb, ?_⟩
    rw [hcode, Memory.read_writeW, addr2_fst, State.xw_eq_view, State.x_advance_eq_regsAt, code_addr2, cfg_addr2,
      State.code_advance, State.cfg_advance]
  · exact absurd rfl (hnf _ _ _)

/-- The byte that a 16-bit store puts at its index (R52). -/
theorem stored_w16_self (o : ByteOrder) (a : Nat) (v : Word) (m : Nat → Byte) :
    stored o a .w16 v m a = firstByte o v := by
  cases o <;> exact if_pos rfl

/-- Whatever its specifier byte is, a word whose opcode byte is STOP's halts the core (R72, R74, R195). -/
theorem step_of_stop_at_pc {s : State} (hs : s.status = .running) (hc : s.cfg.wf = true)
    (hpc : s.pc.toNat + 1 ≤ 0xFFFF) (hop : s.code.read s.pc.toNat = 0x34) : step s = .next (s.advance 2).halt := by
  have hwindow : s.fetchWindow =
      opcOf s.cfg.opc .stop :: s.code.read (s.pc.toNat + 1) :: s.code.pair (s.pc + 2) := by
    rw [State.fetchWindow, if_pos hpc, Memory.pair, if_pos hpc, hop]
    rfl
  have hdecode : decode s.cfg s.fetchWindow = .ok (.stop, s.code.pair (s.pc + 2)) := by
    rw [hwindow, decode_opcOf hc]
    rfl
  simp only [step, hs, hdecode, exec, execStop]

/-- Settles O27: SP leaves STOP's opcode byte at pc, in range, and the core running. -/
theorem storeToCodeIsSeenByTheNextFetch : Obligations.StoreToCodeIsSeenByTheNextFetch := by
  intro s t r1 a hc hs hnf h hpc hstop
  obtain ⟨hb, hread⟩ := exec_sp_of_notFaulted h hnf
  rw [hpc] at hb hread
  have hdone := done_of_notFaulted h hnf
  have hfirst : firstByte s.cfg.dataByteOrder (regsAt s 2 r1) = 0x34 := by
    obtain ⟨ho, hbyte⟩ | ⟨ho, hbyte⟩ := hstop <;> rw [ho] <;> exact hbyte
  refine ⟨_, step_of_stop_at_pc (hdone.status.trans hs) (hdone.cfg ▸ hc) ((inBounds_iff_bits _ _).1 hb) ?_, rfl⟩
  rw [hread, State.pc, stored_w16_self, view, hfirst]

end Sys2Proof.Machine
end

section
/-! PROOFS. The family of spec/30_encoding.md: the opcode map, the fields that the decoder reads, the length of an
instruction, and unknown opcodes (R70-R76, R82, R83). -/

namespace Sys2Proof

open Sys2Proof.Rules

/-! ## Encode and decode -/

/-- Settles O1: `decode_encode`. -/
theorem decodeOfEncodeIsTheInstruction : Obligations.DecodeOfEncodeIsTheInstruction :=
  fun _ _ rest hc hi => decode_encode hc hi rest

/-! ## The opcode map -/

/-- `OPC⁻¹` answers exactly the mnemonic whose byte it is given, under an admissible table (R72). -/
theorem mnemonicOf_eq_some_iff {t : OpcTable} (h : t.wf = true) {b : Byte} {m : Mnemonic} :
    mnemonicOf t b = some m ↔ opcOf t m = b := by
  refine ⟨opcOf_of_mnemonicOf, ?_⟩
  rintro rfl
  exact mnemonicOf_opcOf h m

/-- Settles O2: the three bytes are fixed by `opcOf`, the rest is the table's admissibility. -/
theorem opcIsInjectiveWithThreeFixedBytes : Obligations.OpcIsInjectiveWithThreeFixedBytes :=
  ⟨fun _ hc => ⟨fun _ _ => opcOf_injective (Config.opc_wf hc), rfl, rfl, rfl,
    fun _ _ => mnemonicOf_eq_some_iff (Config.opc_wf hc)⟩, Config.machine_wf⟩

/-- Settles O3: the fixed opcode bytes come first in `mnemonicOf`, so the words decode under every table. -/
theorem wordsOfKnownOpcodesDecode : Obligations.WordsOfKnownOpcodesDecode :=
  fun _ => ⟨rfl, rfl, rfl, rfl, rfl, rfl⟩

/-! ## The fields of the specifier byte, as the table of R70 gives them -/

theorem specW_eq_fieldW (sp : Byte) : specW sp = fieldW sp := by
  have bit : sp.getLsbD 7 = true ↔ sp.toNat / 128 = 1 := by
    rw [BitVec.getLsbD, Nat.testBit_eq_decide_div_mod_eq, decide_eq_true_iff]
    omega
  simp only [specW, fieldW, bit]

theorem specR1_eq_fieldR1 (sp : Byte) : specR1 sp = fieldR1 sp :=
  Fin.ext (by simp [specR1, fieldR1, Nat.shiftRight_eq_div_pow])

theorem specR2_eq_fieldR2 (sp : Byte) : specR2 sp = fieldR2 sp :=
  Fin.ext (by simp [specR2, fieldR2, Nat.shiftRight_eq_div_pow])

theorem specI_eq_fieldI (sp : Byte) : specI sp = fieldI sp := by
  simp [specI, fieldI, BitVec.getLsbD]

/-! ## Fields that are not read -/

/-- Agreement on the fields that are read, in the decoder's own terms (R71, R74). -/
theorem agreeOnRead_iff (m : Mnemonic) (sp sp' : Byte) :
    AgreeOnRead m sp sp' ↔
      ((fieldsRead m).1 = true → specW sp = specW sp') ∧ ((fieldsRead m).2.1 = true → specR1 sp = specR1 sp') ∧
      ((fieldsRead m).2.2.1 = true → specR2 sp = specR2 sp') ∧ ((fieldsRead m).2.2.2 = true → specI sp = specI sp') := by
  simp only [AgreeOnRead, specW_eq_fieldW, specR1_eq_fieldR1, specR2_eq_fieldR2, specI_eq_fieldI]

/-- The immediate byte count depends on the fields that are read only (R74, R82). -/
theorem immLen_congr {m : Mnemonic} {sp sp' : Byte} (h : AgreeOnRead m sp sp') : immLen m sp = immLen m sp' := by
  obtain ⟨hw, -, -, hi⟩ := (agreeOnRead_iff m sp sp').1 h
  cases m with
  | add | sub | cmp | and | or | xor | set | wr => simp only [immLen, hw rfl, hi rfl]
  | sd | lp | sp | jmp | jiz | jnz | jin | jnn | jic | jnc | jio | jno | call => simp only [immLen, hi rfl]
  | _ => rfl

/-- The instruction depends on the fields that are read only (R74, R82). -/
theorem buildInstr_congr {m : Mnemonic} {sp sp' : Byte} (h : AgreeOnRead m sp sp') (v : Word) :
    buildInstr m sp v = buildInstr m sp' v := by
  obtain ⟨hw, h1, h2, hi⟩ := (agreeOnRead_iff m sp sp').1 h
  cases m with
  | add | sub | cmp | and | or | xor | set | sd | lp | sp =>
    simp only [buildInstr, srcReg2, hw rfl, h1 rfl, h2 rfl, hi rfl]
  | mul | div | ld => simp only [buildInstr, hw rfl, h1 rfl, h2 rfl]
  | inc | dec | not | shl | shr | push | pull => simp only [buildInstr, hw rfl, h1 rfl]
  | wr => simp only [buildInstr, srcReg1, hw rfl, h1 rfl, hi rfl]
  | jmp | jiz | jnz | jin | jnn | jic | jnc | jio | jno | call => simp only [buildInstr, srcReg1, h1 rfl, hi rfl]
  | _ => rfl

/-- Where the immediate bit is not read, no immediate is consumed (R74, R82). -/
theorem immLen_of_ignores_immediate_bit {m : Mnemonic} (h : (fieldsRead m).2.2.2 = false) (sp : Byte) :
    immLen m sp = 0 := by
  cases m with
  | inc | dec | mul | div | not | shl | shr | ld | push | pull => rfl
  | retf | cfl | czf | cnf | ccf | cof | szf | snf | scf | sof | rd | int | halt | nop | stop => rfl
  | _ => cases h

/-- Settles O4: the immediate byte count and the instruction are all that the decoder takes from the specifier byte. -/
theorem ignoredFieldsHaveNoEffect : Obligations.IgnoredFieldsHaveNoEffect := by
  refine fun c m hc => ⟨fun sp sp' rest h => ?_, fun h sp rest => ⟨buildInstr m sp 0, mnemonic_buildInstr m sp 0, ?_⟩⟩
  · simp only [decode_opcOf hc, immLen_congr h, buildInstr_congr h]
  · simp only [decode_opcOf hc, immLen_of_ignores_immediate_bit h, takeImm]

/-! ## The length of an instruction -/

/-- The decoder's immediate byte count is that of the table of R74. -/
theorem immLen_eq_immCount (m : Mnemonic) (sp : Byte) : immLen m sp = immCount m (fieldW sp) (fieldI sp) := by
  have bytes (w : Width) : w.bytes = w.bits / 8 := by cases w <;> rfl
  rw [← specW_eq_fieldW, ← specI_eq_fieldI]
  cases m with
  | add | sub | cmp | and | or | xor | set | wr => simp only [immLen, immCount, bytes]
  | _ => rfl

/-- A taken immediate is the bytes in front, as many as asked for; a 1-byte one is a byte's value (R76). -/
theorem takeImm_eq_some_append {o : ByteOrder} {n : Nat} {bs rest : List Byte} {v : Word}
    (h : takeImm o n bs = some (v, rest)) : ∃ imm, bs = imm ++ rest ∧ imm.length = n ∧ (n = 1 → v.toNat < 256) := by
  obtain ⟨rfl, rfl, rfl⟩ | ⟨rfl, b, rfl, rfl⟩ | ⟨rfl, b0, b1, rfl, rfl⟩ := takeImm_eq_some h
  · exact ⟨[], rfl, rfl, by simp⟩
  · exact ⟨[b], rfl, rfl, fun _ => by rw [BitVec.toNat_setWidth]; omega⟩
  · exact ⟨[b0, b1], rfl, rfl, by simp⟩

/-- An operand that the immediate bit chooses fits its width when a 1-byte immediate is a byte's value (R77, R80). -/
theorem fits_operand {sp : Byte} {v : Word} (h : (if specI sp then (specW sp).bytes else 0) = 1 → v.toNat < 256)
    (r : RegIdx) : (if specI sp then Src.imm v else .reg r).fits (specW sp) = true := by
  cases hi : specI sp with
  | false => cases specW sp <;> rfl
  | true =>
    cases hw : specW sp with
    | w16 => rfl
    | w8 => exact decide_eq_true (h (by rw [hi, hw]; rfl))

/-- The decoder builds well-formed instructions (R71, R76). -/
theorem wf_buildInstr {m : Mnemonic} {sp : Byte} {v : Word} (h : immLen m sp = 1 → v.toNat < 256) :
    (buildInstr m sp v).wf = true := by
  cases m with
  | add | sub | cmp | and | or | xor | set | wr => exact fits_operand h _
  | _ => rfl

/-- The encoding of an operand that the immediate bit chooses is as long as the bytes it was read from (R76). -/
theorem length_encodeSrc_operand (o : ByteOrder) (w : Width) (b : Bool) (v : Word) (r : RegIdx) :
    (encodeSrc o w (if b then .imm v else .reg r)).length = if b then w.bytes else 0 := by
  cases b <;> cases w <;> rfl

/-- The canonical encoding of a decoded instruction has as many immediate bytes as the decoder took (R74, R75). -/
theorem length_immBytes_buildInstr (o : ByteOrder) (m : Mnemonic) (sp : Byte) (v : Word) :
    ((buildInstr m sp v).immBytes o).length = immLen m sp := by
  cases m with
  | add | sub | cmp | and | or | xor | set | wr => exact length_encodeSrc_operand o (specW sp) ..
  | sd | lp | sp | jmp | jiz | jnz | jin | jnn | jic | jnc | jio | jno | call => exact length_encodeSrc_operand o .w16 ..
  | _ => rfl

/-- Settles O5: what a successful decode says, and the length of the canonical encoding. -/
theorem instructionLengthIsTwoPlusImmediate : Obligations.InstructionLengthIsTwoPlusImmediate := by
  intro c bs rest i _ h
  obtain ⟨op, sp, tl, m, v, rfl, hop, hv, rfl⟩ := decode_eq_ok h
  obtain ⟨imm, rfl, hlen, hbyte⟩ := takeImm_eq_some_append hv
  refine ⟨wf_buildInstr hbyte, sp, imm, ?_, ?_, ?_⟩
  · rw [mnemonic_buildInstr, opcOf_of_mnemonicOf hop]
  · rw [mnemonic_buildInstr, hlen, immLen_eq_immCount]
  · rw [encode, List.length_cons, List.length_cons, length_immBytes_buildInstr, hlen]
    omega

/-! ## Unknown opcodes -/

/-- A byte that no mnemonic has selects none (R72, R83). -/
theorem mnemonicOf_eq_none {t : OpcTable} {b : Byte} (h : ∀ m, opcOf t m ≠ b) : mnemonicOf t b = none :=
  Option.eq_none_iff_forall_ne_some.2 fun m hm => h m (opcOf_of_mnemonicOf hm)

/-- The decoder rejects an opcode byte that no mnemonic has, whatever follows the word (R83). -/
theorem decode_of_unknown_opcode {c : Config} {op : Byte} (h : ∀ m, opcOf c.opc m ≠ op) (sp : Byte) (rest : List Byte) :
    decode c (op :: sp :: rest) = .error (.unknownOpcode op) := by
  simp only [decode, mnemonicOf_eq_none h]

end Sys2Proof

namespace Sys2Proof.Machine

open Sys2Proof.Rules

/-- Below the segment top the fetch sees the word at pc, then the bytes at the advanced pc (R26, R76). -/
theorem State.fetchWindow_of_word {s : State} (h : s.pc.toNat + 1 ≤ 0xFFFF) :
    s.fetchWindow = s.code.read s.pc.toNat :: s.code.read (s.pc.toNat + 1) :: s.code.pair (s.pc + 2) := by
  rw [State.fetchWindow, if_pos h, Memory.pair, if_pos h]
  rfl

/-- An advance of pc changes nothing else (R26, R27). -/
theorem only_holds_advance (s : State) (k : Nat) : (only s k).holds s (s.advance k) :=
  ⟨fun j _ => congrFun (State.x_advance_eq_regsAt s k) j,
    fun _ _ => by rw [State.x_advance_eq_regsAt]; rfl,
    fun _ => rfl, fun _ => rfl, rfl, rfl, rfl⟩

/-- A running core at an opcode byte that no mnemonic has does what the policy says (R83). -/
theorem step_of_unknown_opcode {s : State} (hs : s.status = .running) (hpc : s.pc.toNat + 1 ≤ 0xFFFF)
    (h : ∀ m, opcOf s.cfg.opc m ≠ s.code.read s.pc.toNat) : step s = unknownOpcode s := by
  simp only [step, hs, State.fetchWindow_of_word hpc, decode_of_unknown_opcode h, fetchFailed]

/-- Settles O8: the step is `unknownOpcode`, whose two answers are the fault state and the +2 advance. -/
theorem unknownOpcodeFollowsThePolicy : Obligations.UnknownOpcodeFollowsThePolicy := by
  intro s _ hs hpc hop
  rw [step_of_unknown_opcode hs hpc hop]
  refine ⟨fun hp => ?_, fun hp => ⟨s.advance 2, ?_, only_holds_advance s 2⟩⟩
  · rw [unknownOpcode, hp]
    rfl
  · rw [unknownOpcode, hp]

end Sys2Proof.Machine
end

section
/-! PROOFS. The family of spec/40_alu.md, part 1: what every instruction's statement needs of its encoding and of the
state after it. The opcode byte, any specifier byte and the immediate bytes decode to the instruction; a rule's `Post`
is built up by the same writes as the state (R70, R74-R77, R113). -/

namespace Sys2Proof

open Sys2Proof.Rules

/-! ## The immediate -/

/-- The value of two bytes put together, the higher one first (R51, R76). -/
theorem toNat_joinHiLo (h l : Byte) : (joinHiLo h l).toNat = 256 * h.toNat + l.toNat := by
  rw [joinHiLo, BitVec.toNat_append, ← Nat.shiftLeft_add_eq_or_of_lt l.isLt, Nat.shiftLeft_eq, Nat.mul_comm]

/-- The decoder takes the bytes in front as the immediate, whatever follows (R76). -/
theorem takeImm_append (ord : ByteOrder) {imm : List Byte} (h : imm.length ≤ 2) (rest : List Byte) :
    takeImm ord imm.length (imm ++ rest) = some (immValue ord imm, rest) := by
  have word (h l : Byte) : joinHiLo h l = BitVec.ofNat 16 (256 * h.toNat + l.toNat) := by
    rw [← toNat_joinHiLo, BitVec.ofNat_toNat, BitVec.setWidth_eq]
  match imm with
  | [] => cases ord <;> rfl
  | [b] => cases ord <;> simp [takeImm, immValue]
  | [b0, b1] => cases ord <;> simp [takeImm, immValue, joinBytes, word]

/-- Too few bytes hold no immediate (R53, R76). -/
theorem takeImm_eq_none_of_length_lt (ord : ByteOrder) {n : Nat} {bs : List Byte} (h : bs.length < n) :
    takeImm ord n bs = none := by
  refine Option.eq_none_iff_forall_ne_some.2 fun ⟨v, rest⟩ hv => ?_
  obtain ⟨imm, rfl, hlen, -⟩ := takeImm_eq_some_append hv
  rw [List.length_append] at h
  omega

/-- The decoder takes at most two immediate bytes (R75). -/
theorem immLen_le_two (m : Mnemonic) (sp : Byte) : immLen m sp ≤ 2 :=
  length_immBytes_buildInstr .big m sp 0 ▸ Machine.length_immBytes_le_two .big _

/-- What the decoder reads of a word and its immediate bytes, whatever the specifier byte is (R70, R74, R76). -/
theorem decode_of_word {c : Config} (hc : c.wf = true) {m : Mnemonic} {sp : Byte} {imm : List Byte}
    (himm : imm.length = immLen m sp) (rest : List Byte) :
    decode c (opcOf c.opc m :: sp :: (imm ++ rest)) = .ok (buildInstr m sp (immValue c.dataByteOrder imm), rest) := by
  simp only [decode_opcOf hc, ← himm, takeImm_append c.dataByteOrder (himm.trans_le (immLen_le_two m sp))]

end Sys2Proof

namespace Sys2Proof.Machine

open Sys2Proof.Rules

/-- A known opcode whose immediate would pass index 0xFFFF: the fetch raises `Fault(OutOfBounds)` (R53, R76). -/
theorem step_of_immediate_past_top {s : State} {m : Mnemonic} (hs : s.status = .running) (hc : s.cfg.wf = true)
    (hpc : s.pc.toNat + 1 ≤ 0xFFFF) (hop : s.code.read s.pc.toNat = opcOf s.cfg.opc m)
    (htop : (s.pc + 2).toNat + immLen m (s.code.read (s.pc.toNat + 1)) - 1 > 0xFFFF) :
    step s = .next (faultState .outOfBounds s) := by
  have hle := immLen_le_two m (s.code.read (s.pc.toNat + 1))
  have hlt := (s.pc + 2).isLt
  have hshort : (s.code.pair (s.pc + 2)).length < immLen m (s.code.read (s.pc.toNat + 1)) := by
    rw [Memory.pair, if_neg (by omega)]
    simp only [List.length_cons, List.length_nil]
    omega
  have hdecode : decode s.cfg s.fetchWindow = .error .truncated := by
    simp only [State.fetchWindow_of_word hpc, hop, decode_opcOf hc, takeImm_eq_none_of_length_lt _ hshort]
  simp only [step, hs, hdecode]
  rfl

end Sys2Proof.Machine

namespace Sys2Proof.Rules

open Sys2Proof.Machine

/-! ## Encodings -/

/-- A rule's encoding is the decoder's, where the immediate byte count and the instruction are (R70, R74). -/
theorem Encoded.of_buildInstr {m : Mnemonic} {n : Byte → Nat} {f : Byte → Word → Instr} (hn : ∀ sp, immLen m sp = n sp)
    (hf : ∀ sp v, buildInstr m sp v = f sp v) : Encoded m n f := by
  constructor
  · intro c hc sp imm rest himm
    rw [decode_of_word hc (himm.trans (hn sp).symm), hf]
  · intro s hs hc hpc hop _ htop
    exact step_of_immediate_past_top hs hc hpc hop (by rw [hn]; exact htop)

/-- The form `xw[r1], Src2` (R74, R77). -/
theorem Encoded.of_src2 {m : Mnemonic} {f : Width → RegIdx → Src → Instr}
    (hn : ∀ sp, immLen m sp = if specI sp then (specW sp).bytes else 0)
    (hf : ∀ sp v, buildInstr m sp v = f (specW sp) (specR1 sp) (srcReg2 sp v)) :
    Encoded m lenW (fun sp v => f (fieldW sp) (fieldR1 sp) (operand2 sp v)) :=
  .of_buildInstr (fun sp => by rw [hn, lenW, specI_eq_fieldI, specW_eq_fieldW])
    (fun sp v => by
      rw [hf, operand2, srcReg2, specI_eq_fieldI, specW_eq_fieldW, specR1_eq_fieldR1, specR2_eq_fieldR2])

/-- The form `xw[r1]`, with the register-2 field and the immediate bit ignored (R74, D11). -/
theorem Encoded.of_reg {m : Mnemonic} {f : Width → RegIdx → Instr} (hn : ∀ sp, immLen m sp = 0)
    (hf : ∀ sp v, buildInstr m sp v = f (specW sp) (specR1 sp)) :
    Encoded m lenNone (fun sp _ => f (fieldW sp) (fieldR1 sp)) :=
  .of_buildInstr hn (fun sp v => by rw [hf, specW_eq_fieldW, specR1_eq_fieldR1])

/-- The form `xw[r1], xw[r2]`, with the immediate bit ignored (R74, D27). -/
theorem Encoded.of_reg_reg {m : Mnemonic} {f : Width → RegIdx → RegIdx → Instr} (hn : ∀ sp, immLen m sp = 0)
    (hf : ∀ sp v, buildInstr m sp v = f (specW sp) (specR1 sp) (specR2 sp)) :
    Encoded m lenNone (fun sp _ => f (fieldW sp) (fieldR1 sp) (fieldR2 sp)) :=
  .of_buildInstr hn (fun sp v => by rw [hf, specW_eq_fieldW, specR1_eq_fieldR1, specR2_eq_fieldR2])

/-! ## The state after an instruction -/

/-- Before any flag is assigned, all eight registers are the rule's. -/
theorem Post.holds.x_eq {p : Post} {s t : State} (h : p.holds s t) (hbits : p.bits = []) : t.x = p.regs := by
  obtain ⟨hregs, hflags, -⟩ := h
  funext j
  by_cases hj : j = RegIdx.flags
  · subst hj
    exact BitVec.eq_of_getLsbD_eq fun k hk => by simpa [hbits] using hflags k hk
  · exact hregs j hj

/-- A register write, before any flag is assigned (R24, R113). -/
theorem Post.holds.setXw {p : Post} {s t : State} (h : p.holds s t) (hbits : p.bits = []) (w : Width) (i : RegIdx)
    (v : BitVec w.bits) : ({ p with regs := put w i v p.regs } : Post).holds s (t.setXw w i v) := by
  have hx : (t.setXw w i v).x = put w i v p.regs := by
    funext j
    rw [State.x_setXw, h.x_eq hbits]
  obtain ⟨-, -, hcode, hdata, hout, hstatus, hcfg⟩ := h
  refine ⟨fun j _ => congrFun hx j, fun k _ => by simp [hx, hbits], ?_, ?_, ?_, ?_, ?_⟩ <;> simpa

/-- A flag assignment, after the assignments of other flags (R32, R113). -/
theorem Post.holds.setFlag {p : Post} {s t : State} (h : p.holds s t) (f : Flag) (b : Bool)
    (hnew : p.bits.lookup f.bit = none) :
    ({ p with bits := p.bits ++ [(f.bit, b)] } : Post).holds s (t.setFlag f b) := by
  obtain ⟨hregs, hflags, hcode, hdata, hout, hstatus, hcfg⟩ := h
  refine ⟨fun j hj => by rw [State.x_setFlag, if_neg hj, hregs j hj], fun k hk => ?_, hcode, hdata, hout, hstatus, hcfg⟩
  rw [State.x_setFlag, if_pos rfl, getLsbD_putBit _ _ _ _ hk, List.lookup_append, hflags k hk]
  by_cases hkf : k = f.bit
  · subst hkf
    simp [hnew, List.lookup]
  · have hkf' : (k == f.bit) = false := by simpa using hkf
    simp [hkf, hkf', List.lookup]

end Sys2Proof.Rules

namespace Sys2Proof.Machine

open Sys2Proof.Rules

/-! ## The shapes of the meanings -/

/-- The value of `Src2`, as a rule sees it (R77). -/
theorem src2_fst (w : Width) (o : Src) (s : State) : (src2 w o s).1 = srcVal w o s.x := by
  cases o with
  | imm v => rfl
  | reg r => exact State.xw_eq_view s w r

/-- `Src2` advances pc past its immediate bytes (R76, R77). -/
theorem src2_snd_eq (w : Width) (o : Src) (s : State) : (src2 w o s).2 = s.advance (srcLen w.bytes o) := by
  cases o with
  | imm v => rfl
  | reg r => exact s.advance_zero.symm

/-- The view after the fetch of the word (R26, R39). -/
theorem State.xw_advance (s : State) (k : Nat) (w : Width) (r : RegIdx) :
    (s.advance k).xw w r = view w (regsAt s k) r := by
  rw [State.xw_eq_view, State.x_advance_eq_regsAt]

/-- An instruction of the form `xw[r1], Src2` completes with both operands as after the word, and pc past the word and
the immediate (R26, R76, R81). -/
theorem withSrc2_eq (w : Width) (r1 : RegIdx) (o : Src) (s : State)
    (k : BitVec w.bits → BitVec w.bits → State → State) :
    withSrc2 w r1 o s k =
      .next (k (view w (regsAt s 2) r1) (srcVal w o (regsAt s 2)) (s.advance (2 + srcLen w.bytes o))) := by
  simp only [withSrc2, src2_fst, src2_snd_eq, State.xw_advance, State.x_advance_eq_regsAt, State.advance_advance]

/-- An instruction of the form `xw[r1]` completes with the operand as after the word (R26, R74). -/
theorem withReg_eq (w : Width) (r1 : RegIdx) (s : State) (k : BitVec w.bits → State → State) :
    withReg w r1 s k = .next (k (view w (regsAt s 2) r1) (s.advance 2)) := by
  simp only [withReg, State.xw_advance]

/-- A register write over the advanced pc (R26, R113). -/
theorem holds_setXw_advance (s : State) (k : Nat) (w : Width) (r : RegIdx) (v : BitVec w.bits) :
    ({ only s k with regs := put w r v (regsAt s k) } : Post).holds s ((s.advance k).setXw w r v) :=
  (only_holds_advance s k).setXw rfl w r v

/-- Two register writes over the advanced pc, the second over the first (R26, R113). -/
theorem holds_setXw_setXw_advance (s : State) (k : Nat) (w : Width) (r r' : RegIdx) (v v' : BitVec w.bits) :
    ({ only s k with regs := put w r' v' (put w r v (regsAt s k)) } : Post).holds s
      (((s.advance k).setXw w r v).setXw w r' v') :=
  (holds_setXw_advance s k w r v).setXw rfl w r' v'

end Sys2Proof.Machine
end

section
/-! PROOFS. The family of spec/40_alu.md, part 2: arithmetic and logic. The model's result and flags are those that a
rule writes in exact arithmetic, and each instruction is its form's operands, its writes and these equations
(R100-R114). -/

namespace Sys2Proof.Machine

open Sys2Proof.Rules

/-! ## Results and flags in exact arithmetic -/

section Arithmetic

variable {n : Nat} (a b : BitVec n)

/-- Z of a result is that its value is 0 (R114). -/
theorem isZero_eq_decide_toNat : isZero a = decide (a.toNat = 0) := by
  simp [isZero, BitVec.toNat_eq]

theorem ofNat_add_eq : BitVec.ofNat n (a.toNat + b.toNat) = a + b := by
  rw [BitVec.ofNat_add, BitVec.ofNat_toNat, BitVec.ofNat_toNat, BitVec.setWidth_eq, BitVec.setWidth_eq]

theorem isZero_add : isZero (a + b) = decide ((a.toNat + b.toNat) % 2 ^ n = 0) := by
  rw [isZero_eq_decide_toNat, BitVec.toNat_add]

/-- C of INC (R101). -/
theorem carryAdd_one : carryAdd n a.toNat 1 = decide (a.toNat = 2 ^ n - 1) := by
  have h := a.isLt
  exact decide_eq_decide.2 (by omega)

/-- Z of INC (R101). -/
theorem isZero_add_one (hn : 0 < n) : isZero (a + 1) = decide (a.toNat = 2 ^ n - 1) := by
  have h := a.isLt
  have hn' : 1 < 2 ^ n := Nat.one_lt_two_pow hn.ne'
  have hone : (1 : BitVec n).toNat = 1 := Nat.mod_eq_of_lt hn'
  rw [isZero_add, hone]
  refine decide_eq_decide.2 ⟨fun hz => ?_, fun hmax => ?_⟩
  · have hge : ¬ a.toNat + 1 < 2 ^ n := fun hlt => by rw [Nat.mod_eq_of_lt hlt] at hz; omega
    omega
  · rw [hmax, Nat.sub_add_cancel hn'.le, Nat.mod_self]

/-- The difference of the signed readings, wrapped, is the wrapped difference (R102). -/
theorem ofInt_toInt_sub : BitVec.ofInt n (a.toInt - b.toInt) = a - b :=
  BitVec.eq_of_toInt_eq (by rw [BitVec.toInt_ofInt, BitVec.toInt_sub])

/-- The signed reading less 1, wrapped, is the wrapped decrement (R103). -/
theorem ofInt_toInt_sub_one : BitVec.ofInt n (a.toInt - 1) = a - 1 := by
  rw [Int.sub_eq_add_neg, BitVec.ofInt_add, BitVec.ofInt_toInt, BitVec.ofInt_neg, BitVec.sub_eq_add_neg]
  rfl

/-- N is the signed comparison (R102, R114, D8). -/
theorem negSub_eq (d : Int) : negSub a d = decide (a.toInt < d) := decide_eq_decide.2 sub_neg

/-- Z of a difference (R102). -/
theorem isZero_sub : isZero (a - b) = decide (a = b) := decide_eq_decide.2 sub_eq_zero

theorem carryMul_product : carryMul n (product a b) = false :=
  decide_eq_false (by rw [product, Nat.mul_comm 2 n]; exact Nat.not_le.2 BitVec.toNat_mul_toNat_lt)

theorem lowHalf_eq (p : Nat) : lowHalf n p = BitVec.ofNat n (p % 2 ^ n) :=
  BitVec.eq_of_toNat_eq (by simp only [lowHalf, BitVec.toNat_ofNat, Nat.mod_mod])

/-- The high half of a product is not truncated, so O is whether it is 0 (R105). -/
theorem isZero_highHalf_product : isZero (highHalf n (product a b)) = decide (product a b / 2 ^ n = 0) := by
  have hlt : product a b / 2 ^ n < 2 ^ n :=
    Nat.div_lt_of_lt_mul (by rw [← Nat.pow_add, ← Nat.mul_two]; exact BitVec.toNat_mul_toNat_lt)
  rw [isZero_eq_decide_toNat, highHalf, BitVec.toNat_ofNat, Nat.mod_eq_of_lt hlt]

/-- Z of NOT (R107). -/
theorem isZero_not : isZero (~~~a) = decide (a.toNat = 2 ^ n - 1) := by
  have h := a.isLt
  rw [isZero_eq_decide_toNat, BitVec.toNat_not]
  exact decide_eq_decide.2 (by omega)

theorem toNat_shiftLeft_one : (a <<< 1).toNat = 2 * a.toNat % 2 ^ n := by
  rw [BitVec.toNat_shiftLeft, Nat.shiftLeft_eq, Nat.pow_one, Nat.mul_comm]

theorem toNat_ushiftRight_one : (a >>> 1).toNat = a.toNat / 2 := by
  rw [BitVec.toNat_ushiftRight, Nat.shiftRight_eq_div_pow, Nat.pow_one]

theorem ofNat_two_mul : BitVec.ofNat n (2 * a.toNat) = a <<< 1 :=
  BitVec.eq_of_toNat_eq (by rw [BitVec.toNat_ofNat, toNat_shiftLeft_one])

theorem ofNat_half : BitVec.ofNat n (a.toNat / 2) = a >>> 1 := by
  rw [← toNat_ushiftRight_one, BitVec.ofNat_toNat, BitVec.setWidth_eq]

end Arithmetic

/-- N of DEC: the operand is 0 or its sign bit is set (R103, D8). -/
theorem negSub_one {w : Width} (a : BitVec w.bits) :
    negSub a 1 = decide (a = 0 ∨ a.getLsbD (w.bits - 1) = true) := by
  have h := a.isLt
  rw [negSub_eq]
  refine decide_eq_decide.2 ?_
  rw [BitVec.toInt_eq_toNat_cond, BitVec.toNat_eq, ← BitVec.msb_eq_getLsbD_last, BitVec.msb_eq_decide,
    decide_eq_true_iff]
  cases w <;> simp only [Width.bits, BitVec.ofNat_eq_ofNat, BitVec.toNat_zero] at h ⊢ <;> omega

/-! ## The instructions -/

/-- Settles O28: the register write and the assignments of C and Z, with the sum wrapped. -/
theorem addGivesWrappedSumCarryAndZero : Obligations.AddGivesWrappedSumCarryAndZero := by
  refine ⟨fun _ => rfl, .of_src2 (fun _ => rfl) (fun _ _ => rfl), fun s w r1 o => ?_⟩
  dsimp only
  rw [ofNat_add_eq, ← isZero_add]
  exact ⟨_, (withSrc2_eq .. : execAdd w r1 o s = _),
    ((holds_setXw_advance s _ w r1 _).setFlag .c _ rfl).setFlag .z _ rfl⟩

/-- Settles O29: ADD of 1, where the exact sum exceeds `M_W` and wraps to 0 for the one operand `M_W`. -/
theorem incGivesWrappedIncrementCarryAndZero : Obligations.IncGivesWrappedIncrementCarryAndZero := by
  refine ⟨.of_reg (fun _ => rfl) (fun _ _ => rfl), fun s w r1 => ?_⟩
  have hw : 0 < w.bits := by cases w <;> decide
  dsimp only
  rw [BitVec.ofNat_add, BitVec.ofNat_toNat, BitVec.setWidth_eq]
  nth_rewrite 1 [← carryAdd_one]
  rw [← isZero_add_one _ hw]
  exact ⟨_, (withReg_eq .. : execInc w r1 s = _),
    ((holds_setXw_advance s _ w r1 _).setFlag .c _ rfl).setFlag .z _ rfl⟩

/-- Settles O30: the exact difference of the signed readings is below 0 exactly where the first is less. -/
theorem subGivesWrappedDifferenceAndSignedLess : Obligations.SubGivesWrappedDifferenceAndSignedLess := by
  refine ⟨.of_src2 (fun _ => rfl) (fun _ _ => rfl), fun s w r1 o => ?_⟩
  dsimp only
  rw [ofInt_toInt_sub, ← negSub_eq, ← isZero_sub]
  exact ⟨_, (withSrc2_eq .. : execSub w r1 o s = _),
    ((holds_setXw_advance s _ w r1 _).setFlag .n _ rfl).setFlag .z _ rfl⟩

/-- Settles O31: SUB of 1, where less than 1 in the signed reading is 0 or a set sign bit. -/
theorem decGivesWrappedDecrementAndSignedLess : Obligations.DecGivesWrappedDecrementAndSignedLess := by
  refine ⟨.of_reg (fun _ => rfl) (fun _ _ => rfl), fun s w r1 => ?_⟩
  dsimp only
  rw [ofInt_toInt_sub_one, ← negSub_one, ← isZero_sub]
  exact ⟨_, (withReg_eq .. : execDec w r1 s = _),
    ((holds_setXw_advance s _ w r1 _).setFlag .n _ rfl).setFlag .z _ rfl⟩

/-- Settles O32: the flag assignments of SUB over the advanced pc. -/
theorem cmpSetsFlagsAndWritesNoRegister : Obligations.CmpSetsFlagsAndWritesNoRegister := by
  refine ⟨.of_src2 (fun _ => rfl) (fun _ _ => rfl), fun s w r1 o => ?_⟩
  dsimp only
  rw [← negSub_eq]
  exact ⟨_, (withSrc2_eq .. : execCmp w r1 o s = _),
    ((only_holds_advance s _).setFlag .n _ rfl).setFlag .z _ rfl⟩

/-- Settles O33: the product of two W-bit values fits in 2W bits, so C is 0 and its halves are exact. -/
theorem mulGivesBothHalvesOfTheProduct : Obligations.MulGivesBothHalvesOfTheProduct := by
  refine ⟨.of_reg_reg (fun _ => rfl) (fun _ _ => rfl), fun s w r1 r2 => ?_⟩
  refine ⟨_, (withReg_eq .. : execMul w r1 r2 s = _), ?_⟩
  dsimp only
  rw [State.xw_advance, carryMul_product, isZero_highHalf_product, lowHalf_eq, ← decide_not]
  exact (((holds_setXw_setXw_advance s 2 w r1 r2 _ _).setFlag .c _ rfl).setFlag .z _ rfl).setFlag .o _ rfl

/-- Settles O34: the library's unsigned division is by definition that of the values. -/
theorem divGivesQuotientAndRemainderOrFaults : Obligations.DivGivesQuotientAndRemainderOrFaults := by
  refine ⟨.of_reg_reg (fun _ => rfl) (fun _ _ => rfl), fun s w r1 r2 => ⟨fun hb => ?_, fun hb => ⟨?_, ?_, ?_⟩⟩⟩
  · exact (if_pos ((State.xw_advance ..).trans (BitVec.eq_of_toNat_eq hb)) : execDiv w r1 r2 s = _)
  · exact Nat.div_add_mod' ..
  · exact Nat.mod_lt _ (Nat.pos_of_ne_zero hb)
  · have hne : (s.advance 2).xw w r2 ≠ 0 := fun h => hb (by rw [← State.xw_advance, h]; exact Nat.zero_mod _)
    refine ⟨_, (if_neg hne : execDiv w r1 r2 s = _), ?_⟩
    dsimp only
    rw [State.xw_advance, State.xw_advance, isZero_eq_decide_toNat, isZero_eq_decide_toNat, ← decide_not,
      BitVec.toNat_udiv, BitVec.toNat_umod, ← BitVec.udiv_def, ← BitVec.umod_def]
    exact ((holds_setXw_setXw_advance s 2 w r1 r2 _ _).setFlag .z _ rfl).setFlag .c _ rfl

/-- Settles O35: the complement is 0 exactly where every bit of the operand is set. -/
theorem notComplementsEveryBit : Obligations.NotComplementsEveryBit := by
  refine ⟨.of_reg (fun _ => rfl) (fun _ _ => rfl), fun s w r1 => ⟨~~~view w (regsAt s 2) r1, fun k hk => ?_, ?_⟩⟩
  · simp [hk]
  · rw [← isZero_not]
    exact ⟨_, (withReg_eq .. : execNot w r1 s = _), (holds_setXw_advance s _ w r1 _).setFlag .z _ rfl⟩

/-- Settles O36: the library's bitwise operations, bit by bit. -/
theorem andOrXorActBitByBit : Obligations.AndOrXorActBitByBit := by
  refine ⟨.of_src2 (fun _ => rfl) (fun _ _ => rfl), .of_src2 (fun _ => rfl) (fun _ _ => rfl),
    .of_src2 (fun _ => rfl) (fun _ _ => rfl), fun s w r1 o => ?_⟩
  dsimp only
  simp only [← isZero_eq_decide_toNat]
  have hpost (v : BitVec w.bits) :=
    (holds_setXw_advance s (2 + srcLen w.bytes o) w r1 v).setFlag .z (isZero v) rfl
  exact ⟨⟨_, fun _ _ => BitVec.getLsbD_and, _, (withSrc2_eq .. : execAnd w r1 o s = _), hpost _⟩,
    ⟨_, fun _ _ => BitVec.getLsbD_or, _, (withSrc2_eq .. : execOr w r1 o s = _), hpost _⟩,
    ⟨_, fun _ _ => BitVec.getLsbD_xor, _, (withSrc2_eq .. : execXor w r1 o s = _), hpost _⟩⟩

/-- Settles O37: a shift by one bit is a doubling or a halving, and its one flag assignment is Z's. -/
theorem shiftsMoveOneBitAndLeaveCarry : Obligations.ShiftsMoveOneBitAndLeaveCarry := by
  refine ⟨.of_reg (fun _ => rfl) (fun _ _ => rfl), .of_reg (fun _ => rfl) (fun _ _ => rfl), fun s w r1 => ⟨?_, ?_⟩⟩
  · rw [ofNat_two_mul, ← toNat_shiftLeft_one, ← isZero_eq_decide_toNat]
    exact ⟨_, (withReg_eq .. : execShl w r1 s = _), (holds_setXw_advance s _ w r1 _).setFlag .z _ rfl⟩
  · rw [ofNat_half, ← toNat_ushiftRight_one, ← isZero_eq_decide_toNat]
    exact ⟨_, (withReg_eq .. : execShr w r1 s = _), (holds_setXw_advance s _ w r1 _).setFlag .z _ rfl⟩

end Sys2Proof.Machine
end

section
/-! PROOFS. The family of spec/41_transfer.md: loads and stores at an address operand, and the stack. Each meaning is an
access in the state after the fetch, which is in range and completes, or passes the segment's end and faults
(R130-R137). -/

namespace Sys2Proof.Rules

open Sys2Proof.Machine

/-! ## Encodings -/

/-- The form `xw[r1], [Addr2]` (R74, R78). -/
theorem Encoded.of_addr2 {m : Mnemonic} {f : Width → RegIdx → Src → Instr}
    (hn : ∀ sp, immLen m sp = if specI sp then 2 else 0)
    (hf : ∀ sp v, buildInstr m sp v = f (specW sp) (specR1 sp) (srcReg2 sp v)) :
    Encoded m len2 (fun sp v => f (fieldW sp) (fieldR1 sp) (operand2 sp v)) :=
  .of_buildInstr (fun sp => by rw [hn, len2, specI_eq_fieldI])
    (fun sp v => by
      rw [hf, operand2, srcReg2, specI_eq_fieldI, specW_eq_fieldW, specR1_eq_fieldR1, specR2_eq_fieldR2])

/-! ## The state after an instruction -/

/-- The rule with other bytes of a segment (R50). -/
def Post.setSeg (p : Post) (g : Segment) (m : Nat → Byte) : Post :=
  match g with
  | .code => { p with code := m }
  | .data => { p with data := m }

/-- A replaced segment reads as its bytes, and everything else is as before (R50, R57). -/
theorem Post.holds.setSeg {p : Post} {s t : State} (h : p.holds s t) (g : Segment) (m : Memory) :
    (p.setSeg g m.read).holds s (t.setSeg g m) := by
  obtain ⟨hregs, hflags, hcode, hdata, hrest⟩ := h
  cases g with
  | code => exact ⟨hregs, hflags, fun _ => rfl, hdata, hrest⟩
  | data => exact ⟨hregs, hflags, hcode, fun _ => rfl, hrest⟩

/-- A write of rsp, before any flag is assigned (R29). -/
theorem Post.holds.setRsp {p : Post} {s t : State} (h : p.holds s t) (hbits : p.bits = []) (v : Word) :
    ({ p with regs := put16 RegIdx.rsp v p.regs } : Post).holds s (t.setRsp v) :=
  h.setXw hbits .w16 RegIdx.rsp v

/-! ## The register view -/

/-- What a write of the view leaves in a cell depends on that cell alone (R24). -/
theorem put_congr (w : Width) (i : RegIdx) (v : BitVec w.bits) {f g : Regs} {j : RegIdx} (h : f j = g j) :
    put w i v f j = put w i v g j := by
  cases w <;> simp only [put, h]

/-- A register written with the value it has is as before (R24). -/
theorem put_view_self (w : Width) (i : RegIdx) (f : Regs) : put w i (view w f i) f = f := by
  funext j
  cases w with
  | w16 =>
    simp only [put, view]
    split
    · subst j; rfl
    · rfl
  | w8 =>
    simp only [put, view]
    split
    · split
      · subst j; exact joinHiLo_hiByte_loByte (f i)
      · rfl
    · simp only [← eq_sub_four_iff ‹_›]
      split
      · subst j; exact joinHiLo_hiByte_loByte (f (i - 4))
      · rfl

/-- The view of a general register does not see the advance of pc (R21, R22, R26). -/
theorem view_regsAt {w : Width} {r : RegIdx} (hr : w = .w16 → r.val < 4) (s : State) (k : Nat) :
    view w (regsAt s k) r = view w s.x r := by
  have hcell : ∀ c : RegIdx, c.val < 4 → regsAt s k c = s.x c := fun c hc =>
    if_neg (by rintro rfl; exact absurd hc (by decide))
  cases w with
  | w16 => exact hcell r (hr rfl)
  | w8 =>
    simp only [view]
    split
    · rw [hcell r ‹_›]
    · rw [hcell (r - 4) (by omega)]

end Sys2Proof.Rules

namespace Sys2Proof.Machine

open Sys2Proof.Rules

/-! ## Loads and stores -/

@[simp] theorem State.seg_advance (s : State) (k : Nat) (g : Segment) : (s.advance k).seg g = s.seg g := by
  cases g <;> rfl

/-- `Addr2` advances pc past its immediate bytes (R76, R78). -/
theorem addr2_snd_eq (o : Src) (s : State) : (addr2 o s).2 = s.advance (srcLen 2 o) := by
  cases o with
  | imm v => rfl
  | reg r => exact s.advance_zero.symm

/-- A load after a fetch of `k` bytes: the register gets the bytes in `DATA_BYTE_ORDER`, or the access passes the
segment's end (R51, R53, R137). -/
theorem load_completes_or_faults {i : Instr} {s : State} {k : Nat} {g : Segment} {a : Word} {w : Width} {r1 : RegIdx}
    (h : exec i s = orRaise .outOfBounds s (((s.advance k).memRead g a w).map ((s.advance k).setXw w r1))) :
    (a.toNat + w.bits / 8 - 1 ≤ 0xFFFF →
      Completes i s
        { only s k with
          regs := put w r1 (bytesAt s.cfg.dataByteOrder (s.seg g).read a.toNat w) (regsAt s k) }) ∧
    (a.toNat + w.bits / 8 - 1 > 0xFFFF → Faults .outOfBounds i s) := by
  constructor
  · intro hle
    rw [State.memRead_of_inBounds g ((inBounds_iff_bits a w).2 hle), State.seg_advance] at h
    exact ⟨_, h, holds_setXw_advance s k w r1 _⟩
  · intro hgt
    rw [State.memRead, if_neg (not_inBounds_of_gt hgt)] at h
    exact h

/-- A store after a fetch of `k` bytes: exactly its bytes of the segment change, or the access passes the segment's end
(R52, R53, R137). -/
theorem store_completes_or_faults {i : Instr} {s : State} {k : Nat} {g : Segment} {a : Word} {w : Width}
    {v : BitVec w.bits} (h : exec i s = orRaise .outOfBounds s ((s.advance k).memWrite g a w v)) :
    (a.toNat + w.bits / 8 - 1 ≤ 0xFFFF →
      Completes i s ((only s k).setSeg g (stored s.cfg.dataByteOrder a.toNat w v (s.seg g).read))) ∧
    (a.toNat + w.bits / 8 - 1 > 0xFFFF → Faults .outOfBounds i s) := by
  constructor
  · intro hle
    rw [State.memWrite_of_inBounds g ((inBounds_iff_bits a w).2 hle), State.seg_advance] at h
    rw [← Memory.read_writeW]
    exact ⟨_, h, (only_holds_advance s k).setSeg g _⟩
  · intro hgt
    rw [State.memWrite, if_neg (not_inBounds_of_gt hgt)] at h
    exact h

/-- Settles O38: a load from DATA at register-2. -/
theorem ldLoadsFromData : Obligations.LdLoadsFromData := by
  refine ⟨.of_reg_reg (fun _ => rfl) (fun _ _ => rfl), fun s w r1 r2 => load_completes_or_faults (g := .data) ?_⟩
  rw [← State.x_advance_eq_regsAt]
  rfl

/-- Settles O39: a store to DATA at `Addr2`. -/
theorem sdStoresToData : Obligations.SdStoresToData := by
  refine ⟨.of_addr2 (fun _ => rfl) (fun _ _ => rfl), fun s w r1 o => store_completes_or_faults (g := .data) ?_⟩
  simp only [exec, execSd, addr2_fst, addr2_snd_eq, State.x_advance_eq_regsAt, State.xw_advance, State.advance_advance]

/-- Settles O40: a load from CODE at `Addr2`. -/
theorem lpLoadsFromCode : Obligations.LpLoadsFromCode := by
  refine ⟨.of_addr2 (fun _ => rfl) (fun _ _ => rfl), fun s w r1 o => load_completes_or_faults (g := .code) ?_⟩
  simp only [exec, execLp, addr2_fst, addr2_snd_eq, State.x_advance_eq_regsAt, State.advance_advance]

/-- Settles O41: a store to CODE at `Addr2`. -/
theorem spStoresToCode : Obligations.SpStoresToCode := by
  refine ⟨.of_addr2 (fun _ => rfl) (fun _ _ => rfl), fun s w r1 o => store_completes_or_faults (g := .code) ?_⟩
  simp only [exec, execSp, addr2_fst, addr2_snd_eq, State.x_advance_eq_regsAt, State.xw_advance, State.advance_advance]

/-! ## SET -/

/-- Settles O42: the register write over the advanced pc, and no flag assignment. -/
theorem setLoadsARegisterWithNoFlagEffect : Obligations.SetLoadsARegisterWithNoFlagEffect :=
  ⟨fun _ => rfl, .of_src2 (fun _ => rfl) (fun _ _ => rfl), fun s w r1 o =>
    ⟨_, (withSrc2_eq .. : execSet w r1 o s = _), holds_setXw_advance s _ w r1 _⟩⟩

/-! ## The stack -/

theorem width_bytes_eq_bits_div (w : Width) : w.bytes = w.bits / 8 := by cases w <;> rfl

/-- rsp after a push, in exact arithmetic (R29). -/
theorem add_bytes_eq (a : Word) (w : Width) :
    a + BitVec.ofNat 16 w.bytes = BitVec.ofNat 16 (a.toNat + w.bits / 8) := by
  rw [width_bytes_eq_bits_div, BitVec.ofNat_add, BitVec.ofNat_toNat, BitVec.setWidth_eq]

/-- rsp after a pull that the stack holds the bytes of, in exact arithmetic (R29, R136). -/
theorem sub_bytes_eq {a : Word} {w : Width} (h : w.bits / 8 ≤ a.toNat) :
    a - BitVec.ofNat 16 w.bytes = BitVec.ofNat 16 (a.toNat - w.bits / 8) := by
  rw [← BitVec.ofNat_sub_ofNat_of_le _ _ ((Nat.div_le_self _ 8).trans_lt (by cases w <;> decide)) h,
    width_bytes_eq_bits_div, BitVec.ofNat_toNat, BitVec.setWidth_eq]

/-- The stack holds the bytes of a pull, counting them as R136 does. -/
theorem canPull_iff_bits (s : State) (w : Width) : s.canPull w = true ↔ w.bits / 8 ≤ (s.x RegIdx.rsp).toNat := by
  cases w <;> exact decide_eq_true_iff

/-- The stack's order is the big one, whatever `DATA_BYTE_ORDER` says (R54). -/
theorem bytesAt_big (m : Nat → Byte) (a : Nat) (w : Width) : bytesAt .big m a w = bytesBig m a w := by
  cases w <;> rfl

/-- A push in range stores at rsp and increments it (R29, R135). -/
theorem State.push_of_inBounds {s : State} {w : Width} (h : inBounds s.rsp w = true) (v : BitVec w.bits) :
    s.push w v =
      some ((s.setSeg .data (s.data.writeW .big s.rsp w v)).setRsp (s.rsp + BitVec.ofNat 16 w.bytes)) := if_pos h

/-- The top of the stack is the bytes at the decremented rsp (R136). -/
theorem State.top_eq (s : State) (w : Width) :
    s.top w = bytesBig s.data.read (s.rsp - BitVec.ofNat 16 w.bytes).toNat w := by
  rw [State.top, State.popped, State.rsp_setRsp, Memory.readW_eq_bytesAt, bytesAt_big]

/-- Settles O43: the store is in range at rsp, where the fetch left it, or the push passes the top of DATA. -/
theorem pushStoresAtRspAndIncrementsIt : Obligations.PushStoresAtRspAndIncrementsIt := by
  refine ⟨.of_reg (fun _ => rfl) (fun _ _ => rfl), fun s w r1 => ?_⟩
  have hexec : exec (.push w r1) s = orRaise .outOfBounds s ((s.advance 2).push w (view w (regsAt s 2) r1)) := by
    rw [← State.xw_advance]
    rfl
  refine ⟨fun hle => ?_, fun hgt => ?_⟩
  · have hb : inBounds (s.advance 2).rsp w = true := (inBounds_iff_bits s.rsp w).2 hle
    rw [State.push_of_inBounds hb] at hexec
    refine ⟨_, hexec, ?_⟩
    rw [← add_bytes_eq, ← Memory.read_writeW]
    exact ((only_holds_advance s 2).setSeg .data _).setRsp rfl _
  · exact hexec.trans (congrArg (orRaise _ s) (if_neg (not_inBounds_of_gt (a := s.rsp) hgt)))

/-- Settles O44: the register write comes over the decremented rsp, or the stack holds too few bytes. -/
theorem pullDecrementsRspAndLoads : Obligations.PullDecrementsRspAndLoads := by
  refine ⟨.of_reg (fun _ => rfl) (fun _ _ => rfl), fun s w r1 => ⟨fun hle => ?_, fun hlt => ?_⟩⟩
  · have hrsp : (s.advance 2).rsp - BitVec.ofNat 16 w.bytes = BitVec.ofNat 16 ((s.x RegIdx.rsp).toNat - w.bits / 8) :=
      sub_bytes_eq hle
    have hnat : (BitVec.ofNat 16 ((s.x RegIdx.rsp).toNat - w.bits / 8)).toNat = (s.x RegIdx.rsp).toNat - w.bits / 8 :=
      Nat.mod_eq_of_lt ((Nat.sub_le ..).trans_lt (s.x RegIdx.rsp).isLt)
    refine ⟨_, (if_pos ((canPull_iff_bits (s.advance 2) w).2 hle) : execPull w r1 s = _), ?_⟩
    rw [State.top_eq, State.popped, hrsp, hnat]
    exact ((only_holds_advance s 2).setRsp rfl _).setXw rfl w r1 _
  · exact (if_neg fun h => absurd ((canPull_iff_bits (s.advance 2) w).1 h) (Nat.not_le.2 hlt) : execPull w r1 s = _)

/-- Settles O45: the pull reads at the old rsp the bytes that the push stored there, and a general register written with
the value it has is as before. -/
theorem pushThenPullRestoresRegisterAndRsp : Obligations.PushThenPullRestoresRegisterAndRsp := by
  intro s w r1 hr1 hle hroom
  obtain ⟨-, hpush⟩ := pushStoresAtRspAndIncrementsIt
  obtain ⟨-, hpull⟩ := pullDecrementsRspAndLoads
  obtain ⟨t, hexec, ht⟩ := (hpush s w r1).1 hle
  have htx : t.x = put16 RegIdx.rsp (BitVec.ofNat 16 ((s.x RegIdx.rsp).toNat + w.bits / 8)) (regsAt s 2) := ht.x_eq rfl
  have htop : (t.x RegIdx.rsp).toNat = (s.x RegIdx.rsp).toNat + w.bits / 8 := by
    rw [htx]
    exact Nat.mod_eq_of_lt (Nat.lt_succ_of_le hroom)
  obtain ⟨-, -, -, hdata, -⟩ := ht
  obtain ⟨u, hexec', hu⟩ := (hpull t w r1).1 (htop ▸ Nat.le_add_left ..)
  refine ⟨t, u, hexec, hexec', fun j hj => ?_⟩
  have hbytes : bytesBig t.data.read (s.x RegIdx.rsp).toNat w = view w s.x r1 := by
    rw [funext hdata, ← bytesAt_big, bytesAt_stored, view_regsAt hr1]
  have hregs : put16 RegIdx.rsp (s.x RegIdx.rsp) (regsAt t 2) j = s.x j := by
    simp only [put16, regsAt, htx, if_neg hj]
    split
    · subst j; rfl
    · rfl
  calc u.x j = put w r1 (view w s.x r1) (put16 RegIdx.rsp (s.x RegIdx.rsp) (regsAt t 2)) j := by
        rw [hu.x_eq rfl, htop, Nat.add_sub_cancel, hbytes, BitVec.ofNat_toNat, BitVec.setWidth_eq]
    _ = put w r1 (view w s.x r1) s.x j := put_congr w r1 _ hregs
    _ = s.x j := congrFun (put_view_self w r1 s.x) j

end Sys2Proof.Machine
end

section
/-! PROOFS. The family of spec/42_control.md: a jump redirects pc over the fetch of its target, CALL does so over a push
of the return address, and RETF is a pull into pc (R150-R163). -/

namespace Sys2Proof.Rules

open Sys2Proof.Machine

/-- The form `Tgt`, with the width bit and bits 3-1 ignored (R74, R79, R161). -/
theorem Encoded.of_tgt {m : Mnemonic} {f : Src → Instr} (hn : ∀ sp, immLen m sp = if specI sp then 2 else 0)
    (hf : ∀ sp v, buildInstr m sp v = f (srcReg1 sp v)) : Encoded m len2 (fun sp v => f (operand1 sp v)) :=
  .of_buildInstr (fun sp => by rw [hn, len2, specI_eq_fieldI])
    (fun sp v => by rw [hf, operand1, srcReg1, specI_eq_fieldI, specR1_eq_fieldR1])

/-- How far pc advances changes no other register (R26). -/
theorem regsAt_congr (s : State) (k k' : Nat) {j : RegIdx} (hj : j ≠ RegIdx.rpp) : regsAt s k j = regsAt s k' j :=
  (if_neg hj).trans (if_neg hj).symm

/-- A redirection of pc, before any flag is assigned: where pc was does not matter (R28). -/
theorem Post.holds.setPc {p : Post} {s t : State} {f : Regs} (h : p.holds s t) (hbits : p.bits = [])
    (hf : ∀ j, j ≠ RegIdx.rpp → p.regs j = f j) (v : Word) :
    ({ p with regs := put16 RegIdx.rpp v f } : Post).holds s (t.setPc v) := by
  have hregs : put16 RegIdx.rpp v f = put .w16 RegIdx.rpp v p.regs := by
    funext j
    simp only [put16, put]
    split
    · rfl
    · exact (hf j ‹_›).symm
  rw [hregs]
  exact h.setXw hbits .w16 RegIdx.rpp v

end Sys2Proof.Rules

namespace Sys2Proof.Machine

open Sys2Proof.Rules

/-! ## Jumps -/

/-- `Tgt` after the word: the target as a rule sees it, and pc past its immediate bytes (R76, R79). -/
theorem tgt_advance (o : Src) (s : State) :
    tgt o (s.advance 2) = (addrVal o (regsAt s 2), s.advance (2 + srcLen 2 o)) := by
  cases o with
  | imm v => exact congrArg _ (s.advance_advance 2 2)
  | reg r => exact congrArg (·, s.advance 2) (congrFun (s.x_advance_eq_regsAt 2) r)

/-- The fetch leaves the flags alone (R26). -/
theorem State.flag_advance (s : State) (k : Nat) (f : Flag) :
    (s.advance k).flag f = (s.x RegIdx.flags).getLsbD f.bit := by
  rw [State.flag, State.x_advance, if_neg (by decide)]

/-- A redirection of pc after the fetch (R28, R161). -/
theorem holds_setPc_advance (s : State) (k : Nat) (v : Word) :
    ({ only s 0 with regs := put16 RegIdx.rpp v (regsAt s 2) } : Post).holds s ((s.advance k).setPc v) :=
  (only_holds_advance s k).setPc rfl (fun _ => regsAt_congr s k 2) v

/-- A jump whose condition holds after the fetch is taken. -/
theorem jumpIf_taken {i : Instr} {cond : State → Bool} {o : Src} {s : State} (h : exec i s = jumpIf cond o s)
    (hc : cond (s.advance (2 + srcLen 2 o)) = true) :
    Completes i s { only s 0 with regs := put16 RegIdx.rpp (addrVal o (regsAt s 2)) (regsAt s 2) } := by
  rw [jumpIf, tgt_advance, if_pos hc] at h
  exact ⟨_, h, holds_setPc_advance s _ _⟩

/-- A jump whose condition fails after the fetch has consumed its target (R161). -/
theorem jumpIf_not_taken {i : Instr} {cond : State → Bool} {o : Src} {s : State} (h : exec i s = jumpIf cond o s)
    (hc : ¬ cond (s.advance (2 + srcLen 2 o)) = true) : Completes i s (only s (2 + srcLen 2 o)) := by
  rw [jumpIf, tgt_advance, if_neg hc] at h
  exact ⟨_, h, only_holds_advance s _⟩

/-- Settles O46: the jump that is always taken. -/
theorem jmpRedirectsPc : Obligations.JmpRedirectsPc :=
  ⟨.of_tgt (fun _ => rfl) (fun _ _ => rfl), fun _ _ => jumpIf_taken (cond := fun _ => true) rfl rfl⟩

/-- A jump on a condition that says a flag has the value `b` tests that flag's bit, and consumes its target taken or
not (R151-R158, R161). -/
theorem jumpIf_tests_flag {i : Src → Instr} {cond : State → Bool} {b : Bool} (f : Flag)
    (h : ∀ o s, exec (i o) s = jumpIf cond o s) (hcond : ∀ t, cond t = true ↔ t.flag f = b) (s : State) (o : Src) :
    ((s.x RegIdx.flags).getLsbD f.bit = b →
      Completes (i o) s { only s 0 with regs := put16 RegIdx.rpp (addrVal o (regsAt s 2)) (regsAt s 2) }) ∧
    ((s.x RegIdx.flags).getLsbD f.bit ≠ b → Completes (i o) s (only s (2 + srcLen 2 o))) := by
  have hc : cond (s.advance (2 + srcLen 2 o)) = true ↔ (s.x RegIdx.flags).getLsbD f.bit = b := by
    rw [hcond, State.flag_advance]
  exact ⟨fun hb => jumpIf_taken (h o s) (hc.2 hb), fun hb => jumpIf_not_taken (h o s) (mt hc.1 hb)⟩

/-- Settles O47: the condition of four jumps is a flag, and of the other four a flag's negation. -/
theorem conditionalJumpsTestOneFlag : Obligations.ConditionalJumpsTestOneFlag := by
  have clear (f : Flag) (t : State) : (!t.flag f) = true ↔ t.flag f = false := .of_eq (Bool.not_eq_true' _)
  intro e he
  fin_cases he <;> refine ⟨.of_tgt (fun _ => rfl) (fun _ _ => rfl), ?_⟩
  · exact jumpIf_tests_flag .z (fun _ _ => rfl) (fun _ => .rfl)
  · exact jumpIf_tests_flag .z (fun _ _ => rfl) (clear .z)
  · exact jumpIf_tests_flag .n (fun _ _ => rfl) (fun _ => .rfl)
  · exact jumpIf_tests_flag .n (fun _ _ => rfl) (clear .n)
  · exact jumpIf_tests_flag .c (fun _ _ => rfl) (fun _ => .rfl)
  · exact jumpIf_tests_flag .c (fun _ _ => rfl) (clear .c)
  · exact jumpIf_tests_flag .o (fun _ _ => rfl) (fun _ => .rfl)
  · exact jumpIf_tests_flag .o (fun _ _ => rfl) (clear .o)

/-! ## CALL and RETF -/

/-- CALL pushes the pc after its operand, and then redirects pc to the target resolved before (R159). -/
theorem exec_call_eq (s : State) (o : Src) :
    exec (.call o) s =
      orRaise .outOfBounds s
        (((s.advance (2 + srcLen 2 o)).push .w16 (s.x RegIdx.rpp + BitVec.ofNat 16 (2 + srcLen 2 o))).map
          (·.setPc (addrVal o (regsAt s 2)))) := by
  rw [exec, execCall, tgt_advance, State.pc_advance, State.pc]

/-- Settles O48: the redirection over the push, or the push passes the top of DATA. -/
theorem callPushesTheReturnAddress : Obligations.CallPushesTheReturnAddress := by
  refine ⟨.of_tgt (fun _ => rfl) (fun _ _ => rfl), fun s o => ?_⟩
  have hexec := exec_call_eq s o
  refine ⟨fun hle => ?_, fun hgt => ?_⟩
  · have hb : inBounds (s.advance (2 + srcLen 2 o)).rsp .w16 = true := (inBounds_iff_bits s.rsp .w16).2 hle
    have hrsp : BitVec.ofNat 16 ((s.x RegIdx.rsp).toNat + 2) = s.x RegIdx.rsp + BitVec.ofNat 16 Width.w16.bytes :=
      (add_bytes_eq (s.x RegIdx.rsp) .w16).symm
    rw [State.push_of_inBounds hb] at hexec
    refine ⟨_, hexec, ?_⟩
    dsimp only
    rw [hrsp, ← Memory.read_writeW]
    exact (((only_holds_advance s _).setSeg .data _).setRsp rfl _).setPc rfl
      (fun _ hj => put_congr .w16 RegIdx.rsp _ (regsAt_congr s _ 2 hj)) _
  · have hb : ¬ inBounds (s.advance (2 + srcLen 2 o)).rsp .w16 = true :=
      not_inBounds_of_gt (a := s.rsp) (w := .w16) hgt
    rw [State.push, if_neg hb] at hexec
    exact hexec

/-- RETF is a 16-bit pull into pc (R136, R160). -/
theorem exec_retf_eq_pull (s : State) : exec .retf s = exec (.pull .w16 RegIdx.rpp) s := rfl

/-- Settles O49: the rule of PULL, with pc as the destination. -/
theorem retfPopsPc : Obligations.RetfPopsPc := by
  obtain ⟨-, hpull⟩ := pullDecrementsRspAndLoads
  refine ⟨.of_buildInstr (fun _ => rfl) (fun _ _ => rfl), fun s => ?_⟩
  simp only [Completes, Faults, exec_retf_eq_pull]
  exact hpull s .w16 RegIdx.rpp

/-- Settles O50: RETF reads at the old rsp the return address that CALL stored there. -/
theorem callThenRetfResumesAfterTheCall : Obligations.CallThenRetfResumesAfterTheCall := by
  intro s o hroom
  obtain ⟨-, hcall⟩ := callPushesTheReturnAddress
  obtain ⟨-, hretf⟩ := retfPopsPc
  obtain ⟨t, hexec, ht⟩ := (hcall s o).1 (Nat.le_of_succ_le hroom)
  have htx : t.x = put16 RegIdx.rpp (addrVal o (regsAt s 2))
      (put16 RegIdx.rsp (BitVec.ofNat 16 ((s.x RegIdx.rsp).toNat + 2)) (regsAt s 2)) := ht.x_eq rfl
  have htop : (t.x RegIdx.rsp).toNat = (s.x RegIdx.rsp).toNat + 2 := by
    rw [htx]
    exact Nat.mod_eq_of_lt (Nat.lt_succ_of_le hroom)
  obtain ⟨-, -, -, hdata, -⟩ := ht
  obtain ⟨u, hexec', hu⟩ := (hretf t).1 (htop ▸ Nat.le_add_left ..)
  have hux : u.x = put16 RegIdx.rpp (s.x RegIdx.rpp + BitVec.ofNat 16 (2 + srcLen 2 o))
      (put16 RegIdx.rsp (s.x RegIdx.rsp) (regsAt t 2)) := by
    rw [hu.x_eq rfl, htop, Nat.add_sub_cancel, funext hdata, ← bytesAt_big, bytesAt_stored, BitVec.ofNat_toNat,
      BitVec.setWidth_eq]
  refine ⟨t, u, hexec, ?_, hexec', ?_, fun j hj => ?_⟩
  · rw [htx]; rfl
  · rw [hux]; rfl
  · simp only [hux, put16, regsAt, htx, if_neg hj]
    split
    · subst j; rfl
    · rfl

end Sys2Proof.Machine
end

section
/-! PROOFS. The family of spec/43_flagops.md: nine assignments of flags over the advance of pc (R170-R179). -/

namespace Sys2Proof.Machine

open Sys2Proof.Rules

/-- One flag assigned over the advance of pc changes that flag's bit and nothing else (R171-R179). -/
theorem setFlag_advance_completes {i : Instr} (f : Flag) (b : Bool)
    (h : ∀ s, exec i s = .next ((s.advance 2).setFlag f b)) (s : State) :
    Completes i s { only s 2 with bits := [(f.bit, b)] } :=
  ⟨_, h s, (only_holds_advance s 2).setFlag f b rfl⟩

/-- CFL assigns its four flags one after another (R170). -/
theorem cfl_completes (s : State) :
    Completes .cfl s { only s 2 with bits := [(0, false), (1, false), (2, false), (3, false)] } :=
  ⟨_, rfl,
    ((((only_holds_advance s 2).setFlag .z false rfl).setFlag .n false rfl).setFlag .c false rfl).setFlag .o false rfl⟩

/-- Settles O51: CFL assigns four flags, and each of the other eight assigns one. -/
theorem flagInstructionsAssignTheirBits : Obligations.FlagInstructionsAssignTheirBits := by
  intro e he
  fin_cases he <;> refine ⟨.of_buildInstr (fun _ => rfl) (fun _ _ => rfl), ?_⟩
  · exact cfl_completes
  · exact setFlag_advance_completes .z false (fun _ => rfl)
  · exact setFlag_advance_completes .n false (fun _ => rfl)
  · exact setFlag_advance_completes .c false (fun _ => rfl)
  · exact setFlag_advance_completes .o false (fun _ => rfl)
  · exact setFlag_advance_completes .z true (fun _ => rfl)
  · exact setFlag_advance_completes .n true (fun _ => rfl)
  · exact setFlag_advance_completes .c true (fun _ => rfl)
  · exact setFlag_advance_completes .o true (fun _ => rfl)

end Sys2Proof.Machine
end

section
/-! PROOFS. The family of spec/44_io_misc.md: WR appends to the output over the fetch of its operand, STOP halts over
the advance of pc, and RD, INT, HALT and NOP are that advance alone (R190-R195). -/

namespace Sys2Proof.Rules

open Sys2Proof.Machine

/-- The forms `Tgt` and `Opd1` that the width bit selects between, with bits 3-1 ignored (R74, R79, R80). -/
theorem Encoded.of_width_tgt {m : Mnemonic} {f : Width → Src → Instr}
    (hn : ∀ sp, immLen m sp = if specI sp then (specW sp).bytes else 0)
    (hf : ∀ sp v, buildInstr m sp v = f (specW sp) (srcReg1 sp v)) :
    Encoded m lenW (fun sp v => f (fieldW sp) (operand1 sp v)) :=
  .of_buildInstr (fun sp => by rw [hn, lenW, specI_eq_fieldI, specW_eq_fieldW])
    (fun sp v => by rw [hf, operand1, srcReg1, specI_eq_fieldI, specR1_eq_fieldR1, specW_eq_fieldW])

/-- Bytes appended to the output change nothing else (R36). -/
theorem Post.holds.out {p : Post} {s t : State} (h : p.holds s t) (bs : List Byte) :
    ({ p with output := p.output ++ bs } : Post).holds s (t.out bs) := by
  obtain ⟨hregs, hflags, hcode, hdata, hout, hrest⟩ := h
  exact ⟨hregs, hflags, hcode, hdata, congrArg (· ++ bs) hout, hrest⟩

/-- The halt changes the status alone (R35). -/
theorem Post.holds.halt {p : Post} {s t : State} (h : p.holds s t) :
    ({ p with status := .halted } : Post).holds s t.halt := by
  obtain ⟨hregs, hflags, hcode, hdata, hout, -, hcfg⟩ := h
  exact ⟨hregs, hflags, hcode, hdata, hout, rfl, hcfg⟩

end Sys2Proof.Rules

namespace Sys2Proof.Machine

open Sys2Proof.Rules

/-! ## The string at an address -/

section CString

variable {m : Memory} {n a : Nat}

/-- The string at a NUL is empty (R190). -/
theorem Memory.string_of_nul (h : m.read a = 0) : m.string (n + 1) a = some [] := if_pos h

/-- A byte that is not NUL is the first of the string (R190). -/
theorem Memory.string_of_ne_nul (h : m.read a ≠ 0) :
    m.string (n + 1) a = (m.string n (a + 1)).map (m.read a :: ·) := if_neg h

/-- Where the first NUL stands `k` bytes after `a`, among the bytes looked at, the string is the `k` bytes before it
(R190). -/
theorem Memory.string_of_first_nul {k : Nat} (hk : k < n) (hne : ∀ j, j < k → m.read (a + j) ≠ 0)
    (hnul : m.read (a + k) = 0) : m.string n a = some ((List.range k).map fun j => m.read (a + j)) := by
  induction k generalizing n a with
  | zero =>
    obtain ⟨n, rfl⟩ := Nat.exists_eq_add_one.2 hk
    exact string_of_nul hnul
  | succ k ih =>
    obtain ⟨n, rfl⟩ := Nat.exists_eq_add_one.2 (Nat.zero_lt_of_lt hk)
    have shift (j : Nat) : a + 1 + j = a + (j + 1) := by omega
    have head : m.read a ≠ 0 := hne 0 k.succ_pos
    have tail : m.string n (a + 1) = some ((List.range k).map fun j => m.read (a + (j + 1))) := by
      simpa only [shift] using
        ih (a := a + 1) (Nat.lt_of_succ_lt_succ hk) (fun j hj => shift j ▸ hne (j + 1) (Nat.succ_lt_succ hj))
          (shift k ▸ hnul)
    rw [string_of_ne_nul head, tail, List.range_succ_eq_map, List.map_cons, List.map_map]
    rfl

/-- Without a NUL among the bytes looked at there is no string (R190). -/
theorem Memory.string_of_no_nul (hne : ∀ j, a ≤ j → j < a + n → m.read j ≠ 0) : m.string n a = none := by
  induction n generalizing a with
  | zero => rfl
  | succ n ih =>
    have tail : m.string n (a + 1) = none := ih fun j hle hlt => hne j (by omega) (by omega)
    rw [string_of_ne_nul (hne a le_rfl (by omega)), tail, Option.map_none]

end CString

/-! ## WR -/

/-- `Opd1` after the word: the byte as a rule sees it, and pc past its immediate byte (R76, R80). -/
theorem opd1_advance (o : Src) (s : State) :
    opd1 o (s.advance 2) = (srcVal .w8 o (regsAt s 2), s.advance (2 + srcLen 1 o)) := by
  cases o with
  | imm v => exact congrArg _ (s.advance_advance 2 1)
  | reg r => exact congrArg (·, s.advance 2) (s.xw_advance 2 .w8 r)

/-- Character mode appends the byte `Opd1` over the fetch (R190). -/
theorem exec_wr_byte_eq (s : State) (o : Src) :
    exec (.wr .w8 o) s = .next ((s.advance (2 + srcLen 1 o)).out [srcVal .w8 o (regsAt s 2)]) := by
  rw [exec, execWr, opd1_advance]

/-- String mode appends the string at the target and a newline over the fetch, or faults (R190). -/
theorem exec_wr_string_eq (s : State) (o : Src) :
    exec (.wr .w16 o) s =
      orRaise .outOfBounds s
        ((s.cString (addrVal o (regsAt s 2))).map fun bs =>
          (s.advance (2 + srcLen 2 o)).out (bs ++ [newlineByte])) := by
  rw [exec, execWr, tgt_advance]
  rfl

/-- Settles O52: one byte is appended, or the string up to the first NUL and a newline, or there is no NUL up to the top
of DATA. -/
theorem wrOutputsAStringOrAByte : Obligations.WrOutputsAStringOrAByte := by
  refine ⟨.of_width_tgt (fun _ => rfl) (fun _ _ => rfl), fun s o => ?_⟩
  have hlt := (addrVal o (regsAt s 2)).isLt
  have hexec := exec_wr_string_eq s o
  refine ⟨⟨_, exec_wr_byte_eq s o, (only_holds_advance s _).out _⟩, fun k hk hne hnul => ?_, fun hne => ?_⟩
  · rw [State.cString, Memory.string_of_first_nul (by omega) hne hnul] at hexec
    exact ⟨_, hexec, (only_holds_advance s _).out _⟩
  · rw [State.cString, Memory.string_of_no_nul fun j hle hj => hne j hle (by omega)] at hexec
    exact hexec

/-! ## The inert instructions and STOP -/

/-- An instruction whose meaning is the +2 advance is encoded with any specifier byte, and changes nothing but pc
(R26, R74). -/
theorem inert_of_advance {m : Mnemonic} {i : Instr} (hn : ∀ sp, immLen m sp = 0)
    (hf : ∀ sp v, buildInstr m sp v = i) (h : ∀ s, exec i s = .next (s.advance 2)) :
    Encoded m lenNone (fun _ _ => i) ∧ ∀ s, Completes i s (only s 2) :=
  ⟨.of_buildInstr hn hf, fun s => ⟨_, h s, only_holds_advance s 2⟩⟩

/-- Settles O53: the meaning of NOP is the +2 advance. -/
theorem nopOnlyAdvancesPc : Obligations.NopOnlyAdvancesPc :=
  inert_of_advance (fun _ => rfl) (fun _ _ => rfl) (fun _ => rfl)

/-- Settles O54: the meaning of each of the three is the +2 advance. -/
theorem inertInstructionsOnlyAdvancePc : Obligations.InertInstructionsOnlyAdvancePc := by
  intro e he
  fin_cases he <;> exact inert_of_advance (fun _ => rfl) (fun _ _ => rfl) (fun _ => rfl)

/-- A halted core takes no further step, and the engine returns 0 (R35, R223). -/
theorem halted_is_final {t : State} (h : t.status = .halted) :
    step t = .fault .coreHalted ∧ t.exitCode = some 0 := by
  simp only [step, State.exitCode, h, and_self]

/-- Settles O55: STOP halts over the advance of pc, and a halted core is at its end. -/
theorem stopHaltsAfterTheAdvance : Obligations.StopHaltsAfterTheAdvance := by
  have hexec (s : State) : exec .stop s = .next (s.advance 2).halt := rfl
  refine ⟨fun _ => rfl, .of_buildInstr (fun _ => rfl) (fun _ _ => rfl),
    fun s => ⟨_, hexec s, (only_holds_advance s 2).halt⟩, fun s t h => halted_is_final ?_⟩
  obtain rfl : (s.advance 2).halt = t := Host.Outcome.next.inj h
  exact State.status_halt _

end Sys2Proof.Machine
end

section
/-! PROOFS. The family of spec/60_exceptions.md, part 1: the order of the fetch faults. What the fetch window holds
decides the decoder's answer, and with it the step (R26, R53, R76, R203). -/

namespace Sys2Proof

/-! ## The decoder's answers -/

/-- The decoder takes an immediate of at most two bytes where the bytes are there (R76). -/
theorem exists_takeImm_eq_some (ord : ByteOrder) {n : Nat} {bs : List Byte} (hn : n ≤ 2) (hle : n ≤ bs.length) :
    ∃ v rest, takeImm ord n bs = some (v, rest) := by
  have hlen : (bs.take n).length = n := List.length_take_of_le hle
  have htake := takeImm_append ord (hlen.trans_le hn) (bs.drop n)
  rw [hlen, List.take_append_drop] at htake
  exact ⟨_, _, htake⟩

/-- A word whose opcode byte has a mnemonic, with too few bytes for the immediate (R53, R76). -/
theorem decode_of_short_immediate {c : Config} {op sp : Byte} {m : Mnemonic} {rest : List Byte}
    (hop : mnemonicOf c.opc op = some m) (hlt : rest.length < immLen m sp) :
    decode c (op :: sp :: rest) = .error .truncated := by
  simp only [decode, hop, takeImm_eq_none_of_length_lt _ hlt]

/-- A word whose opcode byte has a mnemonic, with the bytes of its immediate (R72, R74, R76). -/
theorem decode_of_immediate {c : Config} {op sp : Byte} {m : Mnemonic} {rest : List Byte}
    (hop : mnemonicOf c.opc op = some m) (hle : immLen m sp ≤ rest.length) :
    ∃ v rest', decode c (op :: sp :: rest) = .ok (buildInstr m sp v, rest') := by
  obtain ⟨v, rest', hv⟩ := exists_takeImm_eq_some c.dataByteOrder (immLen_le_two m sp) hle
  exact ⟨v, rest', by simp only [decode, hop, hv]⟩

/-- The decoder answers `unknownOpcode` for a first byte that no mnemonic has (R83). -/
theorem mnemonicOf_of_decode_unknownOpcode {c : Config} {bs : List Byte} {op : Byte}
    (h : decode c bs = .error (.unknownOpcode op)) : bs.head? = some op ∧ mnemonicOf c.opc op = none := by
  unfold decode at h
  split at h
  · split at h
    · cases h
      exact ⟨rfl, ‹_›⟩
    · split at h <;> cases h
  · cases h

end Sys2Proof

namespace Sys2Proof.Machine

open Sys2Proof.Rules

/-! ## The fetch window -/

/-- The first byte that the core fetches is the one at pc (R26). -/
theorem State.head_fetchWindow (s : State) : s.fetchWindow.head? = some (s.code.read s.pc.toNat) := by
  rw [State.fetchWindow, Memory.pair]
  split <;> rfl

/-- A word at index 0xFFFF is cut off (R26, R53). -/
theorem State.fetchWindow_at_top {s : State} (h : s.pc.toNat + 1 > 0xFFFF) :
    s.fetchWindow = [s.code.read s.pc.toNat] := by
  rw [State.fetchWindow, if_neg (Nat.not_le.2 h), Memory.pair, if_neg (Nat.not_le.2 h)]

/-- A 2-byte read holds the bytes of an access of at most two bytes exactly if the access stays below index 0x10000
(R53). -/
theorem Memory.le_length_pair_iff (m : Memory) (a : Word) {n : Nat} (hn : n ≤ 2) :
    n ≤ (m.pair a).length ↔ n = 0 ∨ a.toNat + n - 1 ≤ 0xFFFF := by
  have ha := a.isLt
  unfold Memory.pair
  split <;> simp only [List.length_cons, List.length_nil] <;> omega

/-! ## The step -/

/-- A running core whose bytes are cut off raises `Fault(OutOfBounds)` (R26, R53, R76). -/
theorem step_of_truncated {s : State} (hs : s.status = .running)
    (h : decode s.cfg s.fetchWindow = .error .truncated) : step s = .next (faultState .outOfBounds s) := by
  simp only [step, hs, h]
  rfl

/-- A running core runs the instruction it fetches (R26). -/
theorem step_of_fetches {s : State} {i : Instr} (hs : s.status = .running) (h : Fetches s i) : step s = exec i s := by
  obtain ⟨rest, hd⟩ := h
  simp only [step, hs, hd]

/-- A running core at an opcode byte without a mnemonic faults under the policy `Fault` (R83, R206). -/
theorem step_of_no_mnemonic {s : State} (hs : s.status = .running) (hpc : s.pc.toNat + 1 ≤ 0xFFFF)
    (hop : mnemonicOf s.cfg.opc (s.code.read s.pc.toNat) = none) (hpol : s.cfg.unknownOpcodePolicy = .fault) :
    step s = .next (faultState .unknownOpcode s) := by
  simp only [step, hs, State.fetchWindow_of_word hpc, decode, hop, fetchFailed, unknownOpcode, hpol]
  rfl

/-- Settles O7: the word, the opcode and the immediate are what the decoder asks of the fetch window, in this order. -/
theorem fetchFaultsComeInOrder : Obligations.FetchFaultsComeInOrder := by
  refine fun s hs => ⟨fun htop => step_of_truncated hs ?_, fun hpc => ⟨step_of_no_mnemonic hs hpc, fun m hop => ?_⟩⟩
  · rw [State.fetchWindow_at_top htop]
    rfl
  · dsimp only
    rw [← immLen_eq_immCount]
    have room := s.code.le_length_pair_iff (s.pc + 2) (immLen_le_two m (s.code.read (s.pc.toNat + 1)))
    refine ⟨fun hne htop => step_of_truncated hs ?_, fun hle => ?_⟩
    · rw [State.fetchWindow_of_word hpc]
      refine decode_of_short_immediate hop (Nat.not_le.1 fun hle => ?_)
      exact (room.1 hle).elim hne (Nat.not_le.2 htop)
    · obtain ⟨v, rest, hd⟩ := decode_of_immediate hop (room.2 hle)
      rw [← State.fetchWindow_of_word hpc] at hd
      exact ⟨_, mnemonic_buildInstr m _ v, ⟨rest, hd⟩, step_of_fetches hs ⟨rest, hd⟩⟩

end Sys2Proof.Machine
end

section
/-! PROOFS. The family of spec/60_exceptions.md, part 2: a step that leaves the core faulted raised that fault in the
state before it, and an instruction raises a fault only where its rule says that it does not complete (R200-R202). -/

namespace Sys2Proof.Machine

open Sys2Proof.Rules

/-! ## Precision -/

/-- What a step that leaves the core faulted says: the core was running, the state is the fault's, and the fault came
from the fetched instruction, from bytes that are cut off, or from an unknown opcode under the policy `Fault`. -/
theorem step_faulted_cases {s t : State} {k : FaultKind} {p : Word} {o : Byte} (h : step s = .next t)
    (ht : t.status = .faulted k p o) :
    s.status = .running ∧ t = faultState k s ∧
    ((∃ i, Fetches s i ∧ Faults k i s) ∨
     (k = .outOfBounds ∧ decode s.cfg s.fetchWindow = .error .truncated) ∨
     (k = .unknownOpcode ∧ s.cfg.unknownOpcodePolicy = .fault ∧
       ∃ op, decode s.cfg s.fetchWindow = .error (.unknownOpcode op))) := by
  obtain ⟨hs, ⟨i, rest, hd, hexec⟩ | ⟨hd, rfl⟩ | ⟨op, hd, ⟨hpol, rfl⟩ | ⟨-, rfl⟩⟩⟩ := step_cases h
  · obtain ⟨k', rfl⟩ | hdone := exec_cases hexec
    · cases ht
      exact ⟨hs, rfl, .inl ⟨i, ⟨rest, hd⟩, hexec⟩⟩
    · rw [hdone.status, hs] at ht
      split at ht <;> cases ht
  · cases ht
    exact ⟨hs, rfl, .inr (.inl ⟨rfl, hd⟩)⟩
  · cases ht
    exact ⟨hs, rfl, .inr (.inr ⟨rfl, hpol, op, hd⟩)⟩
  · cases hs.symm.trans ht

/-- Settles O11: the state after the step is the fault's, whose status names `a0` and `CODE[a0]`. -/
theorem faultsArePrecise : Obligations.FaultsArePrecise := by
  intro s t k p o h ht
  obtain ⟨-, rfl, -⟩ := step_faulted_cases h ht
  cases ht
  exact ⟨rfl, rfl, rfl⟩

/-! ## Causes -/

/-- What each instruction that can fault needs in order to raise each kind of fault (R200): the rules R106, R130-R133,
R135, R136, R159, R160 and R190. -/
inductive FaultCause (s : State) : FaultKind → Instr → Prop where
  | div {w : Width} {r1 r2 : RegIdx} : view w (regsAt s 2) r2 = 0 → FaultCause s .divisionByZero (.div w r1 r2)
  | pull {w : Width} {r1 : RegIdx} : s.rsp.toNat < w.bytes → FaultCause s .stackUnderflow (.pull w r1)
  | retf : s.rsp.toNat < 2 → FaultCause s .stackUnderflow .retf
  | ld {r1 r2 : RegIdx} : regsAt s 2 r2 = 0xFFFF → FaultCause s .outOfBounds (.ld .w16 r1 r2)
  | sd {r1 : RegIdx} {a : Src} : addrVal a (regsAt s 2) = 0xFFFF → FaultCause s .outOfBounds (.sd .w16 r1 a)
  | lp {r1 : RegIdx} {a : Src} : addrVal a (regsAt s 2) = 0xFFFF → FaultCause s .outOfBounds (.lp .w16 r1 a)
  | sp {r1 : RegIdx} {a : Src} : addrVal a (regsAt s 2) = 0xFFFF → FaultCause s .outOfBounds (.sp .w16 r1 a)
  | push {r1 : RegIdx} : s.rsp = 0xFFFF → FaultCause s .outOfBounds (.push .w16 r1)
  | call {a : Src} : s.rsp = 0xFFFF → FaultCause s .outOfBounds (.call a)
  | wr {a : Src} : (∀ j, (addrVal a (regsAt s 2)).toNat ≤ j → j ≤ 0xFFFF → s.data.read j ≠ 0) →
      FaultCause s .outOfBounds (.wr .w16 a)

section Cause

variable {s : State} {i : Instr} {k : FaultKind}

/-- An instruction that leaves the core not faulted raises no fault. -/
theorem not_faults_of_next {t : State} (h : exec i s = .next t) (ht : NotFaulted t) : ¬ Faults k i s := fun hf =>
  ht _ _ _ (congrArg State.status (Host.Outcome.next.inj (h.symm.trans hf)))

/-- An instruction that completes in a running core raises no fault. -/
theorem not_faults_of_completes {p : Post} (hs : s.status = .running) (hp : p.status = s.status)
    (h : Completes i s p) : ¬ Faults k i s := by
  obtain ⟨t, hexec, -, -, -, -, -, hstatus, -⟩ := h
  exact not_faults_of_next hexec fun k p o hk => by cases (hstatus.trans (hp.trans hs)).symm.trans hk

/-- An instruction raises at most one kind of fault. -/
theorem faults_unique {k' : FaultKind} (h : Faults k i s) (h' : Faults k' i s) : k = k' := by
  have hstatus := congrArg State.status (Host.Outcome.next.inj (h.symm.trans h'))
  cases hstatus
  rfl

/-- Where an instruction's rule says that it raises one fault under a condition and completes otherwise, a fault it
raises is that one, under that condition. -/
theorem cause_of_rule {C : Prop} {p : Post} {k' : FaultKind} (hs : s.status = .running) (hf : Faults k i s)
    (hdone : ¬ C → Completes i s p) (hp : p.status = s.status) (hfault : C → Faults k' i s) : k = k' ∧ C := by
  have hc : C := by_contra fun hc => not_faults_of_completes hs hp (hdone hc) hf
  exact ⟨faults_unique hf (hfault hc), hc⟩

/-- An access of W/8 bytes passes index 0xFFFF exactly if it is 16 bits wide and starts there (R53). -/
theorem past_top_iff (a : Word) (w : Width) : ¬ a.toNat + w.bits / 8 - 1 ≤ 0xFFFF ↔ w = .w16 ∧ a = 0xFFFF := by
  have ha := a.isLt
  cases w with
  | w8 => exact ⟨fun h => absurd (Nat.lt_succ_iff.1 ha) h, nofun⟩
  | w16 =>
    have htop : a = 0xFFFF ↔ a.toNat = 65535 := BitVec.toNat_eq
    rw [eq_self, true_and, htop, Width.bits]
    omega

/-- A fault of an instruction that completes unless its one access passes index 0xFFFF (R53, R137). -/
theorem cause_of_access {a : Word} {w : Width} {p : Post} (hs : s.status = .running) (hf : Faults k i s)
    (h : (a.toNat + w.bits / 8 - 1 ≤ 0xFFFF → Completes i s p) ∧
      (a.toNat + w.bits / 8 - 1 > 0xFFFF → Faults .outOfBounds i s)) (hp : p.status = s.status) :
    k = .outOfBounds ∧ w = .w16 ∧ a = 0xFFFF := by
  obtain ⟨hdone, hfault⟩ := h
  obtain ⟨hk, hpast⟩ :=
    cause_of_rule hs hf (fun hle => hdone (not_not.1 hle)) hp fun hgt => hfault (Nat.not_le.1 hgt)
  exact ⟨hk, (past_top_iff a w).1 hpast⟩

/-- A NUL at or after index `a`, not above 0xFFFF, gives a first one (R190). -/
theorem Memory.exists_first_nul {m : Memory} {a : Nat} (h : ¬ ∀ j, a ≤ j → j ≤ 0xFFFF → m.read j ≠ 0) :
    ∃ k, a + k ≤ 0xFFFF ∧ (∀ j, j < k → m.read (a + j) ≠ 0) ∧ m.read (a + k) = 0 := by
  push Not at h
  obtain ⟨j, hle, hj, hnul⟩ := h
  obtain ⟨d, rfl⟩ := Nat.exists_eq_add_of_le hle
  have hex : ∃ k, m.read (a + k) = 0 := ⟨d, hnul⟩
  refine ⟨Nat.find hex, ?_, fun _ => Nat.find_min hex, Nat.find_spec hex⟩
  have hmin : Nat.find hex ≤ d := Nat.find_min' hex hnul
  omega

/-- An instruction that raises a fault in a running core has the cause of that fault (R200). -/
theorem cause_of_faults (hs : s.status = .running) (hf : Faults k i s) : FaultCause s k i := by
  cases i with
  | add | inc | sub | dec | cmp | mul | not | and | or | xor | shl | shr | set =>
    exact absurd hf (not_faults_of_next rfl (by simp [NotFaulted, hs]))
  | cfl | czf | cnf | ccf | cof | szf | snf | scf | sof | rd | int | halt | nop | stop =>
    exact absurd hf (not_faults_of_next rfl (by simp [NotFaulted, hs]))
  | jmp | jiz | jnz | jin | jnn | jic | jnc | jio | jno =>
    refine absurd hf (not_faults_of_next rfl ?_)
    dsimp only
    split <;> simp [NotFaulted, hs]
  | div w r1 r2 =>
    obtain ⟨-, hrule⟩ := divGivesQuotientAndRemainderOrFaults
    obtain ⟨hzero, hnonzero⟩ := hrule s w r1 r2
    obtain ⟨rfl, hb⟩ := cause_of_rule hs hf (fun hb => have ⟨_, _, hdone⟩ := hnonzero hb; hdone) rfl hzero
    exact .div (BitVec.eq_of_toNat_eq hb)
  | pull w r1 =>
    obtain ⟨-, hrule⟩ := pullDecrementsRspAndLoads
    obtain ⟨hdone, hfault⟩ := hrule s w r1
    obtain ⟨rfl, hlt⟩ := cause_of_rule hs hf (fun hlt => hdone (Nat.not_lt.1 hlt)) rfl hfault
    exact .pull (hlt.trans_eq (width_bytes_eq_bits_div w).symm)
  | retf =>
    obtain ⟨-, hrule⟩ := retfPopsPc
    obtain ⟨hdone, hfault⟩ := hrule s
    obtain ⟨rfl, hlt⟩ := cause_of_rule hs hf (fun hlt => hdone (Nat.not_lt.1 hlt)) rfl hfault
    exact .retf hlt
  | ld w r1 r2 =>
    obtain ⟨-, hrule⟩ := ldLoadsFromData
    obtain ⟨rfl, rfl, ha⟩ := cause_of_access hs hf (hrule s w r1 r2) rfl
    exact .ld ha
  | sd w r1 a =>
    obtain ⟨-, hrule⟩ := sdStoresToData
    obtain ⟨rfl, rfl, ha⟩ := cause_of_access hs hf (hrule s w r1 a) rfl
    exact .sd ha
  | lp w r1 a =>
    obtain ⟨-, hrule⟩ := lpLoadsFromCode
    obtain ⟨rfl, rfl, ha⟩ := cause_of_access hs hf (hrule s w r1 a) rfl
    exact .lp ha
  | sp w r1 a =>
    obtain ⟨-, hrule⟩ := spStoresToCode
    obtain ⟨rfl, rfl, ha⟩ := cause_of_access hs hf (hrule s w r1 a) rfl
    exact .sp ha
  | push w r1 =>
    obtain ⟨-, hrule⟩ := pushStoresAtRspAndIncrementsIt
    obtain ⟨rfl, rfl, ha⟩ := cause_of_access hs hf (hrule s w r1) rfl
    exact .push ha
  | call a =>
    obtain ⟨-, hrule⟩ := callPushesTheReturnAddress
    obtain ⟨rfl, -, ha⟩ := cause_of_access (w := .w16) hs hf (hrule s a) rfl
    exact .call ha
  | wr w a =>
    obtain ⟨-, hrule⟩ := wrOutputsAStringOrAByte
    obtain ⟨hbyte, hstring, hnone⟩ := hrule s a
    cases w with
    | w8 => exact absurd hf (not_faults_of_completes hs rfl hbyte)
    | w16 =>
      by_cases hno : ∀ j, (addrVal a (regsAt s 2)).toNat ≤ j → j ≤ 0xFFFF → s.data.read j ≠ 0
      · obtain rfl := faults_unique hf (hnone hno)
        exact .wr hno
      · obtain ⟨n, hn, hne, hnul⟩ := Memory.exists_first_nul hno
        exact absurd hf (not_faults_of_completes hs rfl (hstring n hn hne hnul))

end Cause

/-- Settles O12: a fault of the fetch has the cause that the decoder names, and a fault of the fetched instruction the
one that `cause_of_faults` gives. -/
theorem eachFaultHasItsCause : Obligations.EachFaultHasItsCause := by
  intro s t k p o h ht
  obtain ⟨hs, -, ⟨i, hi, hf⟩ | ⟨rfl, hd⟩ | ⟨rfl, hpol, op, hd⟩⟩ := step_faulted_cases h ht
  · cases cause_of_faults hs hf with
    | div hb => exact ⟨_, _, _, hi, hb⟩
    | pull hlt => exact .inl ⟨_, _, hi, hlt⟩
    | retf hlt => exact .inr ⟨hi, hlt⟩
    | ld ha => exact .inr (.inl ⟨_, _, hi, ha⟩)
    | sd ha => exact .inr (.inr (.inl ⟨_, _, .inl hi, ha⟩))
    | lp ha => exact .inr (.inr (.inl ⟨_, _, .inr (.inl hi), ha⟩))
    | sp ha => exact .inr (.inr (.inl ⟨_, _, .inr (.inr hi), ha⟩))
    | push ha => exact .inr (.inr (.inr (.inl ⟨_, hi, ha⟩)))
    | call ha => exact .inr (.inr (.inr (.inr (.inl ⟨_, hi, ha⟩))))
    | wr hno => exact .inr (.inr (.inr (.inr (.inr ⟨_, hi, hno⟩))))
  · exact .inl hd
  · obtain ⟨hhead, hnone⟩ := mnemonicOf_of_decode_unknownOpcode hd
    obtain rfl : s.code.read s.pc.toNat = op := Option.some.inj (s.head_fetchWindow.symm.trans hhead)
    exact ⟨hpol, hnone⟩

end Sys2Proof.Machine
end

section
/-! PROOFS. The family of spec/70_reset_and_hazards.md: the exit code that the engine returns for each run status
(R223). -/

namespace Sys2Proof.Machine

theorem State.exitCode_of_running {s : State} (h : s.status = .running) : s.exitCode = none := by
  simp only [exitCode, h]

theorem State.exitCode_of_faulted {s : State} {k : FaultKind} {p : Word} {o : Byte} (h : s.status = .faulted k p o) :
    s.exitCode = some s.cfg.faultExitCode := by
  simp only [exitCode, h]

/-- Settles O15: the exit code of each status, and an admissible configuration's `FAULT_EXIT_CODE` is not the 0 of a
halt. -/
theorem exitCodeTellsHaltFromFault : Obligations.ExitCodeTellsHaltFromFault :=
  fun _ hc => ⟨State.exitCode_of_running, fun hh => (halted_is_final hh).2,
    fun _ _ _ hf => ⟨State.exitCode_of_faulted hf, Config.faultExitCode_ne_zero hc⟩⟩

end Sys2Proof.Machine
end
